-- ==== Sys2Proof/Word.lean ====
section
/-! DEFINITION. The word, the byte and the two narrow unsigned fields of the HC-256 core (spec 00_scope.md R8,
10_state.md R20 to R22). -/

namespace Sys2Proof

/-- A word: 32 bits, unsigned, bit 0 least significant (R8). `+` on it is addition modulo 2^32, `^^^` is
exclusive OR, `&&&` is AND and `>>>` is the logical shift right with zero fill (R9). -/
abbrev Word := BitVec 32

/-- A byte: 8 bits, unsigned (R8). -/
abbrev Byte := BitVec 8

/-- The step counter `c`: 11 bits, 0 to 2047; its addition wraps modulo 2048 (R22). -/
abbrev StepCounter := BitVec 11

/-- An index into table P or Q: 10 bits, 0 to 1023; its addition and subtraction are modulo 1024 (R10, R21). -/
abbrev TableIndex := BitVec 10

end Sys2Proof
end

