-- ==== Sys2Proof/Machine/Operands.lean ====
section
/-! DEFINITION. Operand forms: the byte and word conversions, the rotate and the bit fields that every other file
takes from here (spec 00_scope.md R8, R9, R12). -/

namespace Sys2Proof.Machine

/-- `v[7:0]`, `v[15:8]`, `v[23:16]`, `v[31:24]`: byte k of a word, k from 0, least significant first (R8, R12). -/
def byteOf (w : Word) (k : Nat) : Byte := w.extractLsb' (8 * k) 8

/-- `le32`: a word from four bytes in little-endian order (R12). -/
def le32 (b0 b1 b2 b3 : Byte) : Word :=
  b0.setWidth 32 + (b1.setWidth 32 <<< 8) + (b2.setWidth 32 <<< 16) + (b3.setWidth 32 <<< 24)

/-- `bytes_le`: the four bytes of a word in little-endian order (R12, R43). -/
def bytesLe (w : Word) : Vector Byte 4 := #v[byteOf w 0, byteOf w 1, byteOf w 2, byteOf w 3]

/-- `bytes_le` as the byte sequence that a message or a keystream holds (R43, R44). -/
def bytesLeList (w : Word) : List Byte := (bytesLe w).toList

/-- `ror(a, n) = (a >> n) | ((a << (32 - n)) mod 2^32)`, for 0 < n < 32 (R9). -/
def ror (a : Word) (n : Nat) : Word := (a >>> n) ||| (a <<< (32 - n))

/-- `v[9:0]`, the value modulo 1024 (R10). -/
def low10 (v : Word) : TableIndex := v.extractLsb' 0 10

/-- `zext_32(n)` of an index or count (R8). -/
def zextWord (n : Nat) : Word := BitVec.ofNat 32 n

/-- Byte-by-byte exclusive OR of a byte sequence with keystream bytes (R141). -/
def xorBytes (input keystream : List Byte) : List Byte := List.zipWith (· ^^^ ·) input keystream

end Sys2Proof.Machine
end

