-- ==== Sys2Proof/Syntax.lean ====
section
/-! DEFINITION. The commands of HC256-CMD, one constructor per row of spec/opcode_table.json (30_encoding.md R62, R66,
R67), and the abstract syntax and the tokens of the assembly language of R71. -/

namespace Sys2Proof

/-- A command of the core (R66: exactly three). The length fields `key_len`, `iv_len` and `in_len` of the message are
the lengths of the byte sequences; `out_len` of PROCESS is an operand of its own (R62). -/
inductive Instr where
  /-- INIT, opcode 0x01, format CMD-I: the Construction interface (R161). -/
  | init (key iv : List Byte)
  /-- PROCESS, opcode 0x02, format CMD-P: the Transform interface (R162). -/
  | process (input : List Byte) (outLen : Word)
  /-- GENWORD, opcode 0x03, format CMD-G: the Raw word access interface (R163). -/
  | genword
  deriving DecidableEq, Repr

/-- An atom of a byte expression of the assembly syntax (R71, `atom`). -/
inductive Atom where
  /-- `x"…"`: bytes in order. -/
  | hex (bytes : List Byte)
  /-- `zeros(n)`: n zero bytes. -/
  | zeros (n : Nat)
  /-- `"…"`: the ASCII codes of the characters. -/
  | ascii (chars : List Char)
  deriving DecidableEq, Repr

/-- A line of the assembly syntax that holds an instruction: `insn` and `pseudo` of R71. A byte expression
(`bytes ::= atom { "++" atom }`) is a list of atoms. -/
inductive AsmLine where
  /-- `INIT key=K, iv=V`. -/
  | init (key iv : List Atom)
  /-- `PROCESS D` (no `out`) and `PROCESS D, out=n`. -/
  | process (data : List Atom) (out : Option Nat)
  /-- `GENWORD`. -/
  | genword
  /-- `ENCRYPT D`, a pseudo-instruction. -/
  | encrypt (data : List Atom)
  /-- `DECRYPT D`, a pseudo-instruction. -/
  | decrypt (data : List Atom)
  /-- `KEYSTREAM n`, a pseudo-instruction. -/
  | keystream (n : Nat)
  /-- `SKIP n`, a pseudo-instruction. -/
  | skip (n : Nat)
  deriving DecidableEq, Repr

/-- What the host does with the data of the response to a pseudo-instruction (R71, the table's last column). -/
inductive HostAction where
  | keepAsCiphertext
  | keepAsPlaintext
  | keepAsKeystream
  | discard
  deriving DecidableEq, Repr

/-- The words of the assembly syntax (R71). -/
inductive Keyword where
  | init
  | process
  | genword
  | encrypt
  | decrypt
  | keystream
  | skip
  | key
  | iv
  | out
  | zeros
  deriving DecidableEq, Repr

/-- The tokens of the assembly syntax (R71). -/
inductive Token where
  | word (k : Keyword)
  | number (n : Nat)
  | hex (bytes : List Byte)
  | text (chars : List Char)
  | equals
  | comma
  | lparen
  | rparen
  | plusPlus
  deriving DecidableEq, Repr

end Sys2Proof
end

