-- ==== Sys2Proof/WellFormed.lean ====
section
/-! DEFINITION. Which commands a message can carry (30_encoding.md R62, R63) and which assembly lines the grammar of
R71 admits. -/

namespace Sys2Proof

/-- A byte count that a length field can hold: LEN_BITS is 32, unsigned (R7, R63). -/
def fitsLengthField (n : Nat) : Bool := decide (n < 2 ^ 32)

/-- The command has a message: each length field holds its byte count (R62, R63). Lengths other than 32 for key or
IV are legal encodings (R62). -/
def Instr.wellFormed : Instr → Bool
  | .init key iv => fitsLengthField key.length && fitsLengthField iv.length
  | .process input _ => fitsLengthField input.length
  | .genword => true

/-- `number ::= decimal digits, 0 to 4294967295` (R71). -/
def asmNumberOk (n : Nat) : Bool := decide (n ≤ 4294967295)

/-- `printable-ascii` of R71: codes 0x20 to 0x7E, and not the closing quote. -/
def printableAscii (ch : Char) : Bool := decide (0x20 ≤ ch.toNat) && decide (ch.toNat ≤ 0x7E) && (ch != '"')

/-- The atom is one the grammar of R71 derives. -/
def Atom.wellFormed : Atom → Bool
  | .hex _ => true
  | .zeros n => asmNumberOk n
  | .ascii chars => chars.all printableAscii

/-- A byte expression has at least one atom (`bytes ::= atom { "++" atom }`, R71). -/
def byteExprWellFormed (e : List Atom) : Bool := !e.isEmpty && e.all Atom.wellFormed

/-- The line is one the grammar of R71 derives. -/
def AsmLine.wellFormed : AsmLine → Bool
  | .init key iv => byteExprWellFormed key && byteExprWellFormed iv
  | .process data out => byteExprWellFormed data && out.all asmNumberOk
  | .genword => true
  | .encrypt data => byteExprWellFormed data
  | .decrypt data => byteExprWellFormed data
  | .keystream n => asmNumberOk n
  | .skip n => asmNumberOk n

end Sys2Proof
end

