-- ==== Sys2Proof/Decode.lean ====
section
/-! DEFINITION. The decoder of command messages (30_encoding.md R60 to R63, R67 to R70), total on every byte stream, and
after it the encoder (R62). -/

namespace Sys2Proof

open Sys2Proof.Machine

/-- What the front of a byte stream holds (R69). -/
inductive Decoded where
  /-- A whole command and the stream after it. -/
  | command (i : Instr) (rest : List Byte)
  /-- An illegal header and the stream after its four bytes (R68). -/
  | illegal (hdr : Word) (rest : List Byte)
  /-- The message is not complete (R70). -/
  | wait
  deriving DecidableEq, Repr

/-- The three opcodes of R67. -/
inductive Opcode where
  | init
  | process
  | genword
  deriving DecidableEq, Repr

/-- `hdr[7:0]` (R61). -/
def opcodeField (hdr : Word) : Byte := hdr.extractLsb' 0 8

/-- `hdr[31:8]`, reserved (R61). -/
def reservedField (hdr : Word) : BitVec 24 := hdr.extractLsb' 8 24

/-- The opcode map (R67). A header with a non-zero reserved field, or with any other opcode value, names no command:
it is illegal (R68). -/
def opcodeOf (hdr : Word) : Option Opcode :=
  if reservedField hdr ≠ 0 then none
  else if opcodeField hdr = 0x01 then some .init
  else if opcodeField hdr = 0x02 then some .process
  else if opcodeField hdr = 0x03 then some .genword
  else none

/-- The two operand fields of formats CMD-I and CMD-P, at offsets 4 and 8 of the message, and the bytes after them
(R62); none while they have not all arrived. -/
def operandFields : List Byte → Option (Word × Word × List Byte)
  | a0 :: a1 :: a2 :: a3 :: b0 :: b1 :: b2 :: b3 :: data => some (le32 a0 a1 a2 a3, le32 b0 b1 b2 b3, data)
  | _ => none

/-- CMD-I after the header (R62, R69): `key_len` key bytes, then `iv_len` IV bytes. -/
def decodeInit (s : List Byte) : Decoded :=
  match operandFields s with
  | none => .wait
  | some (keyLen, ivLen, data) =>
    if data.length < keyLen.toNat + ivLen.toNat then .wait
    else .command (.init (data.take keyLen.toNat) ((data.drop keyLen.toNat).take ivLen.toNat))
      (data.drop (keyLen.toNat + ivLen.toNat))

/-- CMD-P after the header (R62, R69): `in_len` input bytes; `out_len` adds no bytes. -/
def decodeProcess (s : List Byte) : Decoded :=
  match operandFields s with
  | none => .wait
  | some (inLen, outLen, data) =>
    if data.length < inLen.toNat then .wait
    else .command (.process (data.take inLen.toNat) outLen) (data.drop inLen.toNat)

/-- The decoder (R69): the header first, then the operand fields its opcode requires, then the data they count. -/
def decode : List Byte → Decoded
  | m0 :: m1 :: m2 :: m3 :: s =>
    match opcodeOf (le32 m0 m1 m2 m3) with
    | none => .illegal (le32 m0 m1 m2 m3) s
    | some .genword => .command .genword s
    | some .init => decodeInit s
    | some .process => decodeProcess s
  | _ => .wait

/-- The header word of a command (R62, R67). -/
def headerOf : Instr → Word
  | .init _ _ => 0x00000001
  | .process _ _ => 0x00000002
  | .genword => 0x00000003

/-- The message of a command (R62). -/
def encode (i : Instr) : List Byte :=
  bytesLeList (headerOf i) ++
  match i with
  | .init key iv => bytesLeList (zextWord key.length) ++ bytesLeList (zextWord iv.length) ++ key ++ iv
  | .process input outLen => bytesLeList (zextWord input.length) ++ bytesLeList outLen ++ input
  | .genword => []

/-- `n`, the total length of a command's message (R62). -/
def messageBytes : Instr → Nat
  | .init key iv => 12 + key.length + iv.length
  | .process input _ => 12 + input.length
  | .genword => 4

/-- The total length of the message at the front of a stream, from its header and operand fields alone (R69); 4 for an
illegal header and 12 while the operand fields have not arrived. -/
def messageLength : List Byte → Nat
  | m0 :: m1 :: m2 :: m3 :: s =>
    match opcodeOf (le32 m0 m1 m2 m3), operandFields s with
    | some .init, some (keyLen, ivLen, _) => 12 + keyLen.toNat + ivLen.toNat
    | some .process, some (inLen, _, _) => 12 + inLen.toNat
    | some .init, none => 12
    | some .process, none => 12
    | some .genword, _ => 4
    | none, _ => 4
  | _ => 4

/-- The bytes of a number of `n` bytes, least significant first: the opcode table's numbering of an instruction's bits
(bit 0 is the least significant bit of the header's first byte). -/
def tableBytes (n w : Nat) : List Byte := (List.range n).map fun k => BitVec.ofNat 8 (w >>> (8 * k))

/-- The message whose first `nbits` bits are those of `w` and whose other bits are all 0, exactly as long as its own
header and operand fields say (R69). -/
def tableMessage (nbits w : Nat) : List Byte :=
  let given := tableBytes (nbits / 8) w
  let n := messageLength (given ++ List.replicate 12 0)
  (given ++ List.replicate n 0).take n

/-- The instruction that `decode` reads from the message whose first `nbits` bits are those of `w` (the host's opcode
table numbering), none where it refuses. -/
def decodeTableWord (nbits w : Nat) : Option Instr :=
  match decode (tableMessage nbits w) with
  | .command i _ => some i
  | .illegal _ _ => none
  | .wait => none

end Sys2Proof
end

