-- ==== Sys2Proof/Config.lean ====
section
/-! DEFINITION. The fixed parameters of the core (spec 00_scope.md R7; R2: none of them is configurable;
WORD_BITS, TABLE_WORDS, COUNTER_MOD, PENDING_BYTES and LEN_BITS are in the types) and the free
values: what the spec leaves unspecified after the reset signal (10_state.md R34, 93_implementation_defined.md U2). -/

namespace Sys2Proof

/-- WARMUP_STEPS (R7): the generator steps INIT runs and discards (R127). Irreducible, so that no tactic unfolds 4096
generator steps by accident; evaluation and the kernel are not affected. -/
@[irreducible] def Config.warmupSteps : Nat := 4096

/-- EXPANSION_WORDS (R7): the length of the expansion buffer W. -/
def Config.expansionWords : Nat := 2560

/-- The words of W that are seeded from key and IV and not computed (R111). -/
def Config.seedWords : Nat := 16

/-- P_OFFSET (R7): the first index of W loaded into P. -/
def Config.pOffset : Nat := 512

/-- Q_OFFSET (R7): the first index of W loaded into Q. -/
def Config.qOffset : Nat := 1536

/-- KEY_BYTES (R7). -/
def Config.keyBytes : Nat := 32

/-- IV_BYTES (R7). -/
def Config.ivBytes : Nat := 32

/-- FREE VALUE (assumption log 2): table P after the n-th reset signal, which R34 leaves unspecified. -/
opaque Config.freeP : Nat → Vector Word 1024

/-- FREE VALUE (assumption log 2): table Q after the n-th reset signal. -/
opaque Config.freeQ : Nat → Vector Word 1024

/-- FREE VALUE (assumption log 2): the step counter c after the n-th reset signal. -/
opaque Config.freeC : Nat → StepCounter

/-- FREE VALUE (assumption log 2): the pending buffer after the n-th reset signal. -/
opaque Config.freeBuf : Nat → Vector Byte 4

/-- FREE VALUE (assumption log 2): the pending count after the n-th reset signal. -/
opaque Config.freeIdx : Nat → Fin 4

end Sys2Proof
end

