-- ==== Sys2Proof/Machine/State.lean ====
section
/-! DEFINITION. The state of the core (spec 10_state.md R20 to R34), its response messages (30_encoding.md R64), the reasons a
step can stop, and the state after reset. -/

namespace Sys2Proof.Machine

/-- Table P or Q: 1024 words of 32 bits (R21, R40). -/
abbrev Table := Vector Word 1024

/-- The status codes of R200. -/
inductive Status where
  | ok
  | invalidKeyLength
  | invalidIVLength
  | lengthMismatch
  | notInitialized
  | illegalCommand
  deriving DecidableEq, Repr

/-- A response message: a status and the data bytes after the response header (R64). -/
structure Response where
  status : Status
  data : List Byte
  deriving DecidableEq, Repr

/-- The generator state (R21, R22): tables P and Q and the step counter c. -/
structure GeneratorState where
  P : Table
  Q : Table
  c : StepCounter
  deriving DecidableEq, Repr

/-- The instance state (R33): the generator and the pending buffer. `idx` counts the bytes of `buf` not yet consumed;
they are `buf[4 - idx]` to `buf[3]` (R24). -/
structure CipherState where
  idx : Fin 4
  buf : Vector Byte 4
  gen : GeneratorState
  deriving DecidableEq, Repr

/-- The state of the core and of its two byte streams. -/
structure State where
  /-- The core holds an initialised instance (R25). -/
  ready : Bool
  /-- The core has refused an illegal header and waits for reset (R26). -/
  halted : Bool
  /-- The model's own: the bytes the host has sent that the core has not consumed, oldest first (R60). -/
  rx : List Byte
  /-- The model's own: the reset signals still to come (R220), each with the bytes the host sends after it and before
  the next one. -/
  resets : List (List Byte)
  /-- The model's own: the response bytes the core has sent since the model's start, oldest first (R60, R64). -/
  tx : List Byte
  /-- The model's own: how many reset signals have been taken. The free values of `Config` are applied to it. -/
  draws : Nat
  /-- The instance: P, Q, c, buf and idx (R20). It stands last so that a failed comparison of two states ends before it
  reaches the 4096 steps of a fresh instance. -/
  cipher : CipherState
  deriving DecidableEq, Repr

/-- Why a step stops. No command's meaning stops: each of these says that there is nothing to execute. -/
inductive Fault where
  /-- Raised by `awaitStep`: no byte is pending and no reset is to come. The core idles between commands (R214, R220);
  the run is finished. Safe: nothing is left for a step to do. -/
  | idle
  /-- Raised by `awaitStep`: the stream ends inside a message and no reset is to come (R70, R228). The core is stuck, not
  finished. Safe: the spec gives a truncated final message no step. -/
  | truncatedMessage
  /-- Raised by `haltedStep`: the core is halted, every byte sent is swallowed and no reset is to come (R165). Never a
  successful end. Safe: the spec gives the core nothing further to do. -/
  | halted
  deriving DecidableEq, Repr

/-- Why a step is refused. -/
inductive Refusal where
  /-- Kept for an instruction without a meaning; no arm of `exec` uses it. Safe: a refused run proves nothing. -/
  | notModelled (mnemonic : String)
  deriving DecidableEq, Repr

/-- The state right after reset (R34, R220): `ready` and `halted` are 0. P, Q, c, buf and idx are unspecified there; the
model starts them at zero (DESIGN CHOICE, assumption log 1; unsafe). The host has sent nothing and the core has
answered nothing. -/
def State.reset : State where
  ready := false
  halted := false
  rx := []
  resets := []
  tx := []
  draws := 0
  cipher := { idx := 0
              buf := Vector.replicate 4 0
              gen := { P := Vector.replicate 1024 0, Q := Vector.replicate 1024 0, c := 0 } }

end Sys2Proof.Machine
end

