-- ==== Sys2Proof/Machine/Flags.lean ====
section
/-! DEFINITION. The core's flags and codes: the phase (R22, R30), the numeric status codes (R200) and the order in which the
checks of a command report (R204). `ready` and `halted` are fields of State, written only by the rules R25 and R26
name. -/

namespace Sys2Proof.Machine

/-- The phase flag: P-phase when `c < 1024`, Q-phase otherwise (R22). It is derived from c and not stored (R30). -/
def inPPhase (c : StepCounter) : Bool := decide (c.toNat < 1024)

/-- The entry index of a step, `i = c mod 1024 = c[9:0]` (R22). -/
def entryIndex (c : StepCounter) : TableIndex := c.extractLsb' 0 10

/-- The numeric status codes (R200). -/
def Status.code : Status → Byte
  | .ok => 0x00
  | .invalidKeyLength => 0x01
  | .invalidIVLength => 0x02
  | .lengthMismatch => 0x03
  | .notInitialized => 0x04
  | .illegalCommand => 0x05

end Sys2Proof.Machine
end

