-- ==== Sys2Proof/Machine/Ops.lean ====
section
/-! DEFINITION. The shared operations: reading and writing a table entry (R41, R47), sending a response (R64), ending a command
with an error (R205), and the reset signal (R220). -/

namespace Sys2Proof.Machine

/-- `T[j]` (R11). A 10-bit index is always inside the table (R47). -/
def Table.read (T : Table) (j : TableIndex) : Word := T[j.toNat]'(by have := j.isLt; omega)

/-- `T[j] <- v` (R11): one whole word is written (R41). -/
def Table.write (T : Table) (j : TableIndex) (v : Word) : Table := T.set j.toNat v (by have := j.isLt; omega)

/-- The bytes of a response (R64): the header word, status in bits 7:0 and zero above, then the data. -/
def Response.bytes (r : Response) : List Byte := bytesLeList (r.status.code.setWidth 32) ++ r.data

/-- Send a response to the host (R60, R64). -/
def State.respond (s : State) (r : Response) : State := { s with tx := s.tx ++ r.bytes }

/-- End a command with an error (R13 `raise Error(code)`, R205): the response carries the code and no data, no state is
saved and control goes nowhere. The one state effect is that IllegalCommand halts the core (R164, R206). There is no
return from an error: it is not sticky, and the next command runs normally (R206). -/
def State.raiseError (s : State) (e : Status) : State :=
  { s.respond { status := e, data := [] } with halted := s.halted || e == .illegalCommand }

/-- The instance after a reset signal: unspecified (R34), so a free value. -/
def unspecifiedCipher (n : Nat) : CipherState where
  gen := { P := Config.freeP n, Q := Config.freeQ n, c := Config.freeC n }
  buf := Config.freeBuf n
  idx := Config.freeIdx n

/-- The reset signal (R220): `ready` and `halted` go to 0, the instance becomes unspecified, the bytes of a partly received
message are discarded, and the next byte received is byte 0 of a header. No response is sent. `bytes` is what the host
sends after this signal and `later` the signals after it. -/
def State.takeReset (s : State) (bytes : List Byte) (later : List (List Byte)) : State where
  cipher := unspecifiedCipher s.draws
  ready := false
  halted := false
  rx := bytes
  resets := later
  tx := s.tx
  draws := s.draws + 1

/-- Consume the front of the input stream, leaving `rest`. -/
def State.consume (s : State) (rest : List Byte) : State := { s with rx := rest }

/-- Replace the instance. -/
def State.setCipher (s : State) (k : CipherState) : State := { s with cipher := k }

/-- Set `ready` (R25). -/
def State.setReady (s : State) : State := { s with ready := true }

/-- The pending bytes in the order they will be consumed: `buf[4 - idx]` to `buf[3]` (R24). -/
def CipherState.pending (k : CipherState) : List Byte := k.buf.toList.drop (4 - k.idx.val)

/-- `buf[4 - idx]`, the next pending byte (R24). It is read only while `idx > 0` (R141); the remainder keeps the index in
range where `idx = 0`. -/
def CipherState.nextPending (k : CipherState) : Byte := k.buf[(4 - k.idx.val) % 4]

/-- `idx <- idx - 1`, done only while `idx > 0` (R141). -/
def CipherState.dropPending (k : CipherState) : CipherState := { k with idx := k.idx - 1 }

/-- The number of generator steps a PROCESS of `n` bytes makes when entered with `idx = d` (R144): `ceil(rem / 4)`. -/
def wordCount (d n : Nat) : Nat := (n - min d n + 3) / 4

end Sys2Proof.Machine
end

