-- ==== Sys2Proof/Machine/Generator.lean ====
section
/-! DEFINITION. The keystream generator (spec 43_generator.md R120 to R129). -/

namespace Sys2Proof.Machine

/-- `i3 = (i - 3) mod 1024` (R120). -/
def i3 (i : TableIndex) : TableIndex := i - 3

/-- `i10 = (i - 10) mod 1024` (R120). -/
def i10 (i : TableIndex) : TableIndex := i - 10

/-- `i12 = (i - 12) mod 1024` (R120). -/
def i12 (i : TableIndex) : TableIndex := i - 12

/-- `i1023 = (i - 1023) mod 1024` (R120). -/
def i1023 (i : TableIndex) : TableIndex := i - 1023

/-- The compression function h (R121): byte k of `u` selects within the k-th quarter of the table. -/
def h (T : Table) (u : Word) : Word :=
  T.read ((byteOf u 0).setWidth 10) + T.read (256 + (byteOf u 1).setWidth 10) +
    T.read (512 + (byteOf u 2).setWidth 10) + T.read (768 + (byteOf u 3).setWidth 10)

/-- The new value of the active table's entry i (R122, R123, R124). `A` is the active table before the step and `B` the
inactive one. -/
def updatedEntry (A B : Table) (i : TableIndex) : Word :=
  let x := A.read (i3 i)
  let y := A.read (i1023 i)
  A.read i + A.read (i10 i) + (ror x 10 ^^^ ror y 23) + B.read (low10 (x ^^^ y))

/-- The active table after the step: one entry is written (R49, R124). -/
def updatedTable (A B : Table) (i : TableIndex) : Table := A.write i (updatedEntry A B i)

/-- The output word (R122, R123, R124). `A'` is the active table after the write: `A'[i]` is the new value, and
`A'[i12]` is unchanged (R49, R50). -/
def outputWord (A' B : Table) (i : TableIndex) : Word := h B (A'.read (i12 i)) ^^^ A'.read i

/-- The generator step `gen()` (R126): the word it returns and the state after it. The counter advances after the output
(R125). -/
def gen (g : GeneratorState) : Word × GeneratorState :=
  let i := entryIndex g.c
  if inPPhase g.c then
    let P' := updatedTable g.P g.Q i
    (outputWord P' g.Q i, { P := P', Q := g.Q, c := g.c + 1 })
  else
    let Q' := updatedTable g.Q g.P i
    (outputWord Q' g.P i, { P := g.P, Q := Q', c := g.c + 1 })

/-- `n` generator steps, their outputs discarded (R127). -/
def genSteps : Nat → GeneratorState → GeneratorState
  | 0, g => g
  | n + 1, g => genSteps n (gen g).2

/-- The words of `n` generator steps, in the order they are produced (R129). -/
def genWords : Nat → GeneratorState → List Word
  | 0, _ => []
  | n + 1, g => (gen g).1 :: genWords n (gen g).2

end Sys2Proof.Machine
end

