-- ==== Sys2Proof/Machine/ByteLayer.lean ====
section
/-! DEFINITION. The byte layer: the process algorithm (spec 44_byte_layer.md R141), in its three steps (a), (b), (c). Each answers
the output bytes it adds, the input bytes it leaves and the state after it. -/

namespace Sys2Proof.Machine

/-- The keystream bytes of a sequence of generator words, in order (R140). -/
def wordBytes (ws : List Word) : List Byte := ws.flatMap bytesLeList

/-- Step (a): consume pending bytes while `idx > 0` and input is left (R141). -/
def consumePending : CipherState → List Byte → List Byte × List Byte × CipherState
  | k, [] => ([], [], k)
  | k, b :: bs =>
    if k.idx = 0 then ([], b :: bs, k)
    else
      let r := consumePending k.dropPending bs
      ((b ^^^ k.nextPending) :: r.1, r.2)

/-- Step (b): while at least 4 bytes are left, one generator word for the next 4 (R141). -/
def wholeWords : GeneratorState → List Byte → List Byte × List Byte × GeneratorState
  | g, b0 :: b1 :: b2 :: b3 :: bs =>
    let w := (gen g).1
    let r := wholeWords (gen g).2 bs
    (xorBytes [b0, b1, b2, b3] (bytesLeList w) ++ r.1, r.2)
  | g, bs => ([], bs, g)

/-- Step (c): for 1 to 3 trailing bytes, one more word; its four bytes become `buf` and `idx` counts the ones not used
(R141). -/
def trailingBytes (k : CipherState) (bs : List Byte) : List Byte × CipherState :=
  if bs = [] then ([], k)
  else
    let w := (gen k.gen).1
    (xorBytes bs (bytesLeList w), { gen := (gen k.gen).2, buf := bytesLe w, idx := Fin.ofNat 4 (4 - bs.length) })

/-- Steps (b) and (c): what is done with the input that step (a) leaves (R141). -/
def freshBytes (k : CipherState) (bs : List Byte) : List Byte × CipherState :=
  let b := wholeWords k.gen bs
  let c := trailingBytes { k with gen := b.2.2 } b.2.1
  (b.1 ++ c.1, c.2)

/-- The process algorithm (R141): the output bytes and the instance after it. Step (b) never runs while `idx > 0`,
because step (a) then leaves no input. -/
def process (k : CipherState) (input : List Byte) : List Byte × CipherState :=
  let a := consumePending k input
  let r := freshBytes a.2.2 a.2.1
  (a.1 ++ r.1, r.2)

end Sys2Proof.Machine
end

