-- ==== Sys2Proof/Machine/Mixing.lean ====
section
/-! DEFINITION. The mixing functions f1 and f2 (spec 41_mixing.md R100 to R102), used only during expansion. -/

namespace Sys2Proof.Machine

/-- `f1(x) = ror(x, 7) ^ ror(x, 18) ^ (x >> 3)` (R100). -/
def f1 (x : Word) : Word := ror x 7 ^^^ ror x 18 ^^^ (x >>> 3)

/-- `f2(x) = ror(x, 17) ^ ror(x, 19) ^ (x >> 10)` (R101). -/
def f2 (x : Word) : Word := ror x 17 ^^^ ror x 19 ^^^ (x >>> 10)

end Sys2Proof.Machine
end

