-- ==== Sys2Proof/Machine/Expansion.lean ====
section
/-! DEFINITION. Key and IV expansion (spec 42_expansion.md R110 to R114) and the instance that INIT builds from it. The
expansion buffer W is a local value of INIT, not state (10_state.md R27). -/

namespace Sys2Proof.Machine

/-- Word j of a 32-byte key or IV, little-endian (R42, R110). -/
def inputWord (b : List Byte) (j : Nat) : Word :=
  le32 (b.getD (4 * j) 0) (b.getD (4 * j + 1) 0) (b.getD (4 * j + 2) 0) (b.getD (4 * j + 3) 0)

/-- `W[0..15]`: the eight key words, then the eight IV words (R111). -/
def seedBuffer (key iv : List Byte) : Array Word :=
  ((List.range 8).map (inputWord key) ++ (List.range 8).map (inputWord iv)).toArray

/-- `W[i] <- f2(W[i-2]) + W[i-7] + f1(W[i-15]) + W[i-16] + zext_32(i)`, for the next i in order (R112): the buffer holds
`W[0..i-1]` before and `W[0..i]` after. -/
def expandStep (W : Array Word) : Array Word :=
  let i := W.size
  W.push (f2 (W.getD (i - 2) 0) + W.getD (i - 7) 0 + f1 (W.getD (i - 15) 0) + W.getD (i - 16) 0 + zextWord i)

/-- `n` recurrence steps (R112). -/
def expandSteps : Nat → Array Word → Array Word
  | 0, W => W
  | n + 1, W => expandSteps n (expandStep W)

/-- The whole expansion buffer, `W[0..2559]` (R111, R112). -/
def expandBuffer (key iv : List Byte) : Array Word :=
  expandSteps (Config.expansionWords - Config.seedWords) (seedBuffer key iv)

/-- 1024 consecutive words of W, from index `offset` (R113). -/
def loadTable (W : Array Word) (offset : Nat) : Table := Vector.ofFn fun j : Fin 1024 => W.getD (offset + j.val) 0

/-- The generator before warm-up: P and Q loaded from W (R113) and `c <- 0` (R161, R23). -/
def loadedGenerator (key iv : List Byte) : GeneratorState where
  P := loadTable (expandBuffer key iv) Config.pOffset
  Q := loadTable (expandBuffer key iv) Config.qOffset
  c := 0

/-- The generator after the 4096 discarded warm-up steps (R127). -/
def freshGenerator (key iv : List Byte) : GeneratorState := genSteps Config.warmupSteps (loadedGenerator key iv)

/-- The instance INIT leaves: the warmed-up generator, `buf` zero and `idx = 0` (R161). -/
def freshCipher (key iv : List Byte) : CipherState where
  gen := freshGenerator key iv
  buf := Vector.replicate 4 0
  idx := 0

end Sys2Proof.Machine
end

