-- ==== Sys2Proof/Machine/Commands.lean ====
section
/-! DEFINITION. The meanings of INIT, PROCESS and GENWORD (spec 45_commands.md R160 to R163), of an illegal header (R164), of
the halted state (R165) and of waiting for input (30_encoding.md R70). A halted core consumes a command without response
or state change (R160, R165), so every meaning looks at `halted` first (R204). -/

namespace Sys2Proof.Machine

/-- INIT (R161). The checks come first and leave the state unchanged; success replaces the whole instance. -/
def execInit (key iv : List Byte) (s : State) : Host.Outcome State Fault Refusal :=
  if s.halted then .next s
  else if key.length ≠ Config.keyBytes then .next (s.raiseError .invalidKeyLength)
  else if iv.length ≠ Config.ivBytes then .next (s.raiseError .invalidIVLength)
  else .next (((s.setCipher (freshCipher key iv)).setReady).respond { status := .ok, data := [] })

/-- PROCESS (R162). -/
def execProcess (input : List Byte) (outLen : Word) (s : State) : Host.Outcome State Fault Refusal :=
  if s.halted then .next s
  else if s.ready = false then .next (s.raiseError .notInitialized)
  else if outLen.toNat ≠ input.length then .next (s.raiseError .lengthMismatch)
  else
    let r := process s.cipher input
    .next ((s.setCipher r.2).respond { status := .ok, data := r.1 })

/-- GENWORD (R163): one raw generator word; `buf` and `idx` are neither read nor written. -/
def execGenword (s : State) : Host.Outcome State Fault Refusal :=
  if s.halted then .next s
  else if s.ready = false then .next (s.raiseError .notInitialized)
  else
    let r := gen s.cipher.gen
    .next ((s.setCipher { s.cipher with gen := r.2 }).respond { status := .ok, data := bytesLeList r.1 })

/-- An illegal header (R164): IllegalCommand is answered and the core halts. The header word itself is recorded nowhere
(R200). -/
def execIllegal (_hdr : Word) (s : State) : Host.Outcome State Fault Refusal :=
  if s.halted then .next s else .next (s.raiseError .illegalCommand)

/-- A step of the halted core (R165): every byte sent is swallowed without response; then only a reset signal leaves the
state, and without one the core is stuck. -/
def haltedStep (s : State) : Host.Outcome State Fault Refusal :=
  match s.rx, s.resets with
  | _ :: _, _ => .next (s.consume [])
  | [], bytes :: later => .next (s.takeReset bytes later)
  | [], [] => .fault .halted

/-- No complete message is pending (R70): the core waits for bytes or reset. With a reset signal to come, that is what
happens next (R220); otherwise there is no step. -/
def awaitStep (s : State) : Host.Outcome State Fault Refusal :=
  match s.rx, s.resets with
  | _, bytes :: later => .next (s.takeReset bytes later)
  | _ :: _, [] => .fault .truncatedMessage
  | [], [] => .fault .idle

end Sys2Proof.Machine
end

