-- ==== Sys2Proof/Machine/Dispatch.lean ====
section
/-! DEFINITION. One arm per command (spec 45_commands.md R160). -/

namespace Sys2Proof.Machine

def exec (i : Instr) (s : State) : Host.Outcome State Fault Refusal :=
  match i with
  | .init key iv => Sys2Proof.Machine.execInit key iv s
  | .process input outLen => Sys2Proof.Machine.execProcess input outLen s
  | .genword => Sys2Proof.Machine.execGenword s

end Sys2Proof.Machine
end

