-- ==== Sys2Proof/Machine/Step.lean ====
section
/-! DEFINITION. One step of the core (spec 45_commands.md R160): decode the message at the front of the host's stream, consume it,
execute it whole. -/

namespace Sys2Proof.Machine

/-- One step (R160, R69, R164, R165, R70). -/
def step (s : State) : Host.Outcome State Fault Refusal :=
  if s.halted then haltedStep s
  else
    match decode s.rx with
    | .command i rest => exec i (s.consume rest)
    | .illegal hdr rest => execIllegal hdr (s.consume rest)
    | .wait => awaitStep s

/-- The state in which the host has sent exactly the message whose first `nbits` bits are those of `w` (the opcode table's
numbering), its other bits zero: the next step runs it. The host's stream is where commands come from (assumption log
4). -/
def State.withFetchWord (s : State) (nbits w : Nat) : State := s.consume (tableMessage nbits w)

end Sys2Proof.Machine
end

