-- ==== Sys2Proof/Machine/Assembler.lean ====
section
/-! DEFINITION. The assembler (spec 30_encoding.md R71): what each line of the abstract syntax assembles to, the pseudo-instructions'
expansions, and the reader of the concrete syntax, from characters to lines. -/

namespace Sys2Proof

open Sys2Proof.Machine

/-- The bytes of an atom (R71). -/
def Atom.bytes : Atom → List Byte
  | .hex bytes => bytes
  | .zeros n => List.replicate n 0
  | .ascii chars => chars.map fun ch => BitVec.ofNat 8 ch.toNat

/-- The bytes of a byte expression: its atoms' bytes in order (R71). -/
def exprBytes (e : List Atom) : List Byte := e.flatMap Atom.bytes

/-- The command a line assembles to (R71): `PROCESS D` has `out_len = in_len`, and each pseudo-instruction expands to
PROCESS. -/
def AsmLine.assemble : AsmLine → Instr
  | .init key iv => .init (exprBytes key) (exprBytes iv)
  | .process data none => .process (exprBytes data) (zextWord (exprBytes data).length)
  | .process data (some n) => .process (exprBytes data) (zextWord n)
  | .genword => .genword
  | .encrypt data => .process (exprBytes data) (zextWord (exprBytes data).length)
  | .decrypt data => .process (exprBytes data) (zextWord (exprBytes data).length)
  | .keystream n => .process (List.replicate n 0) (zextWord n)
  | .skip n => .process (List.replicate n 0) (zextWord n)

/-- What the host does with the response's data, for a pseudo-instruction (R71). -/
def AsmLine.hostAction : AsmLine → Option HostAction
  | .encrypt _ => some .keepAsCiphertext
  | .decrypt _ => some .keepAsPlaintext
  | .keystream _ => some .keepAsKeystream
  | .skip _ => some .discard
  | .init _ _ => none
  | .process _ _ => none
  | .genword => none

/-- The byte stream a program assembles to: its lines' messages one after another, with no padding (R60, R71). -/
def assembleProgram (program : List AsmLine) : List Byte := program.flatMap fun l => encode l.assemble

/-! ## The concrete syntax -/

/-- The value of a hexadecimal digit, of either case (assumption log 7). -/
def hexDigit (ch : Char) : Option Nat :=
  let n := ch.toNat
  if 0x30 ≤ n ∧ n ≤ 0x39 then some (n - 0x30)
  else if 0x41 ≤ n ∧ n ≤ 0x46 then some (n - 0x41 + 10)
  else if 0x61 ≤ n ∧ n ≤ 0x66 then some (n - 0x61 + 10)
  else none

/-- `{ hexdigit hexdigit }` (R71): the bytes in order. -/
def hexBytes : List Char → Option (List Byte)
  | [] => some []
  | a :: b :: cs =>
    match hexDigit a, hexDigit b, hexBytes cs with
    | some x, some y, some bs => some (BitVec.ofNat 8 (16 * x + y) :: bs)
    | _, _, _ => none
  | [_] => none

/-- A decimal digit. -/
def isDecimalDigit (ch : Char) : Bool := decide (0x30 ≤ ch.toNat) && decide (ch.toNat ≤ 0x39)

/-- A letter, upper or lower case. -/
def isLetter (ch : Char) : Bool :=
  (decide (0x41 ≤ ch.toNat) && decide (ch.toNat ≤ 0x5A)) || (decide (0x61 ≤ ch.toNat) && decide (ch.toNat ≤ 0x7A))

/-- The value of a sequence of decimal digits. -/
def decimalValue (cs : List Char) : Nat := cs.foldl (fun n ch => 10 * n + (ch.toNat - 0x30)) 0

/-- The characters up to a closing quote, and what follows it; none where the quote is missing. -/
def untilQuote : List Char → Option (List Char × List Char)
  | [] => none
  | '"' :: cs => some ([], cs)
  | ch :: cs =>
    match untilQuote cs with
    | some (body, rest) => some (ch :: body, rest)
    | none => none

/-- The words of the grammar (R71). -/
def keyword : List Char → Option Keyword
  | ['I', 'N', 'I', 'T'] => some .init
  | ['P', 'R', 'O', 'C', 'E', 'S', 'S'] => some .process
  | ['G', 'E', 'N', 'W', 'O', 'R', 'D'] => some .genword
  | ['E', 'N', 'C', 'R', 'Y', 'P', 'T'] => some .encrypt
  | ['D', 'E', 'C', 'R', 'Y', 'P', 'T'] => some .decrypt
  | ['K', 'E', 'Y', 'S', 'T', 'R', 'E', 'A', 'M'] => some .keystream
  | ['S', 'K', 'I', 'P'] => some .skip
  | ['k', 'e', 'y'] => some .key
  | ['i', 'v'] => some .iv
  | ['o', 'u', 't'] => some .out
  | ['z', 'e', 'r', 'o', 's'] => some .zeros
  | _ => none

/-- The tokens of one line, up to a comment. R71 leaves open where blanks may or must stand; the model's choice (DESIGN CHOICE,
assumption log 7): blanks and tabs are skipped between tokens; a word of the grammar is the whole run of letters at its place, so a
blank or tab must stand between a word and a letter after it (`PROCESSzeros(3)`, `PROCESSx"00"` and `INITkey=x"00"` are refused) and
is needed nowhere else (`SKIP4` is `SKIP 4`); and the grammar's terminals `key=`, `iv=`, `out=` and `zeros(` are two tokens each, so
that `key =` and `zeros (3)` are read as `key=` and `zeros(3)`, while `x"` and `++` admit no blank inside. The first argument bounds
the number of tokens and blanks; the line's own length is enough. -/
def tokensOf : Nat → List Char → Option (List Token)
  | _, [] => some []
  | 0, _ :: _ => none
  | n + 1, ch :: cs =>
    if ch = ';' then some []
    else if ch = ' ' ∨ ch = '\t' then tokensOf n cs
    else if ch = '=' then (tokensOf n cs).map (.equals :: ·)
    else if ch = ',' then (tokensOf n cs).map (.comma :: ·)
    else if ch = '(' then (tokensOf n cs).map (.lparen :: ·)
    else if ch = ')' then (tokensOf n cs).map (.rparen :: ·)
    else if ch = '+' ∧ cs.head? = some '+' then (tokensOf n cs.tail).map (.plusPlus :: ·)
    else if ch = 'x' ∧ cs.head? = some '"' then
      match untilQuote cs.tail with
      | some (body, rest) =>
        match hexBytes body, tokensOf n rest with
        | some bs, some ts => some (.hex bs :: ts)
        | _, _ => none
      | none => none
    else if ch = '"' then
      match untilQuote cs with
      | some (body, rest) =>
        if body.all printableAscii then (tokensOf n rest).map (.text body :: ·) else none
      | none => none
    else if isDecimalDigit ch then
      let v := decimalValue (ch :: cs.takeWhile isDecimalDigit)
      if asmNumberOk v then (tokensOf n (cs.dropWhile isDecimalDigit)).map (.number v :: ·) else none
    else
      match keyword (ch :: cs.takeWhile isLetter) with
      | some k => (tokensOf n (cs.dropWhile isLetter)).map (.word k :: ·)
      | none => none

/-- `atom` (R71), and the tokens after it. -/
def parseAtom : List Token → Option (Atom × List Token)
  | .hex bs :: ts => some (.hex bs, ts)
  | .text cs :: ts => some (.ascii cs, ts)
  | .word .zeros :: .lparen :: .number n :: .rparen :: ts => some (.zeros n, ts)
  | _ => none

/-- `bytes ::= atom { "++" atom }` (R71), and the tokens after it. The first argument bounds the number of atoms; the
number of tokens is enough. -/
def parseBytes : Nat → List Token → Option (List Atom × List Token)
  | 0, _ => none
  | n + 1, ts =>
    match parseAtom ts with
    | none => none
    | some (a, .plusPlus :: ts') =>
      match parseBytes n ts' with
      | some (e, ts'') => some (a :: e, ts'')
      | none => none
    | some (a, ts') => some ([a], ts')

/-- A byte expression that is all there is. -/
def parseOnlyBytes (ts : List Token) : Option (List Atom) :=
  match parseBytes ts.length ts with
  | some (e, []) => some e
  | _ => none

/-- `insn` and `pseudo` (R71). -/
def parseInsn : List Token → Option AsmLine
  | .word .init :: .word .key :: .equals :: ts =>
    match parseBytes ts.length ts with
    | some (key, .comma :: .word .iv :: .equals :: ts') => (parseOnlyBytes ts').map (.init key ·)
    | _ => none
  | .word .process :: ts =>
    match parseBytes ts.length ts with
    | some (e, []) => some (.process e none)
    | some (e, [.comma, .word .out, .equals, .number n]) => some (.process e (some n))
    | _ => none
  | [.word .genword] => some .genword
  | .word .encrypt :: ts => (parseOnlyBytes ts).map .encrypt
  | .word .decrypt :: ts => (parseOnlyBytes ts).map .decrypt
  | [.word .keystream, .number n] => some (.keystream n)
  | [.word .skip, .number n] => some (.skip n)
  | _ => none

/-- `line ::= [ insn ] [ ";" comment ] newline` (R71), without its newline: no instruction, or one. -/
def parseLine (cs : List Char) : Option (List AsmLine) :=
  match tokensOf cs.length cs with
  | none => none
  | some [] => some []
  | some ts => (parseInsn ts).map ([·])

/-- The lines of a text, each without its newline, and the characters after the last newline. -/
def textLines : List Char → List (List Char) × List Char
  | [] => ([], [])
  | ch :: cs =>
    let r := textLines cs
    if ch = '\n' then ([] :: r.1, r.2)
    else
      match r.1 with
      | [] => ([], ch :: r.2)
      | l :: ls => ((ch :: l) :: ls, r.2)

/-- Join the instructions of lines that all parse. -/
def joinLines : List (Option (List AsmLine)) → Option (List AsmLine)
  | [] => some []
  | none :: _ => none
  | some l :: ls => (joinLines ls).map (l ++ ·)

/-- `program ::= { line }` (R71): the instructions of a text, none where a line is not of the grammar or the last line has no
newline. -/
def parseProgram (text : List Char) : Option (List AsmLine) :=
  let r := textLines text
  if r.2 = [] then joinLines (r.1.map parseLine) else none

end Sys2Proof
end

