-- ==== Sys2Proof/Safety.lean ====
section
/-! DEFINITION. The terms the statements use: runs of commands, the keystream of an instance (spec 43_generator.md R129,
44_byte_layer.md R140, R142), the status a command must report (60_exceptions.md R204) and the invariant of R32. -/

namespace Sys2Proof.Machine

/-- A run has ended well: the core is idle and not halted (R165: halted is never a successful end; R70: a truncated message
leaves the core stuck, not finished). -/
def Fault.endsWell : Fault → Bool
  | .idle => true
  | .truncatedMessage => false
  | .halted => false

/-- Executing decoded commands one after another, in arrival order (R48). -/
def execAll : List Instr → State → Host.Outcome State Fault Refusal
  | [], s => .next s
  | i :: is, s =>
    match exec i s with
    | .next t => execAll is t
    | .fault f => .fault f
    | .refused r => .refused r

/-- The header bytes of a response (R64): the code in the first byte, the other three zero. -/
def statusBytes (st : Status) : List Byte := [st.code, 0, 0, 0]

/-- The status a command reports on a core that is not halted: the first condition that holds, in the order of R204. -/
def reportedStatus (i : Instr) (s : State) : Status :=
  match i with
  | .init key iv =>
    if key.length ≠ 32 then .invalidKeyLength else if iv.length ≠ 32 then .invalidIVLength else .ok
  | .process input outLen =>
    if s.ready = false then .notInitialized else if outLen.toNat ≠ input.length then .lengthMismatch else .ok
  | .genword => if s.ready = false then .notInitialized else .ok

/-- How many data bytes follow the header of a response to a command with that status (R64). -/
def responseDataLength : Instr → Status → Nat
  | .process _ outLen, .ok => outLen.toNat
  | .genword, .ok => 4
  | _, _ => 0

/-- `ks_word[n]`: the n-th word that a generator produces from here on (R129). -/
def ksWord (g : GeneratorState) (n : Nat) : Word := (gen (genSteps n g)).1

/-- `ks_byte[m]`, with `m = 4n + k`: byte k of word n (R140). -/
def ksByte (g : GeneratorState) (m : Nat) : Byte := byteOf (ksWord g (m / 4)) (m % 4)

/-- The responses to consecutive PROCESS commands over `chunks`, the first of which starts at keystream position
`globalPos`: each is OK and the bytes `input[k] ^ ks_byte[globalPos + k]` (R142). -/
def keystreamResponses (g : GeneratorState) : Nat → List (List Byte) → List Byte
  | _, [] => []
  | globalPos, d :: ds =>
    statusBytes .ok ++ d.mapIdx (fun k b => b ^^^ ksByte g (globalPos + k)) ++
      keystreamResponses g (globalPos + d.length) ds

/-- The PROCESS command whose `out_len` is its `in_len` (R71, `PROCESS D`). -/
def processCommand (d : List Byte) : Instr := .process d (zextWord d.length)

/-- The process algorithm over consecutive chunks: the outputs joined, and the instance at the end (R145). -/
def processChunks : CipherState → List (List Byte) → List Byte × CipherState
  | k, [] => ([], k)
  | k, d :: ds =>
    let r := process k d
    let rs := processChunks r.2 ds
    (r.1 ++ rs.1, rs.2)

/-- Two instances no later command can tell apart: the same P, Q, c and idx, the same pending bytes, and the same buf unless
`idx = 0`, where buf is never read (R24, R145). -/
def CipherState.Agrees (k k' : CipherState) : Prop :=
  k.gen = k'.gen ∧ k.idx = k'.idx ∧ k.pending = k'.pending ∧ (k.idx ≠ 0 → k.buf = k'.buf)

/-- R142: `pks` is the keystream bytes of the words generated inside PROCESS since INIT and `emitted` is how many of them
PROCESS has used; idx is the difference and the pending bytes are the ones not used. -/
def CipherState.PendingOf (k : CipherState) (pks : List Byte) (emitted : Nat) : Prop :=
  k.idx.val + emitted = pks.length ∧ k.pending = pks.drop emitted

/-- R32, R129: on a ready core the generator is the warmed-up generator of some 32-byte key and IV after some number n of
steps, with `c = n mod 2048`, and whenever bytes are pending, buf is the bytes of one of its first n words (R24). -/
def KeystreamInv (s : State) : Prop :=
  s.ready = true → ∃ (key iv : List Byte) (n : Nat),
    key.length = 32 ∧ iv.length = 32 ∧
    s.cipher.gen = genSteps n (freshGenerator key iv) ∧ s.cipher.gen.c.toNat = n % 2048 ∧
    (s.cipher.idx ≠ 0 → ∃ m < n, s.cipher.buf = bytesLe (ksWord (freshGenerator key iv) m))

/-- The two states differ at most in P, Q, c, buf and idx. -/
def SameButCipher (s t : State) : Prop := s.setCipher t.cipher = t

/-- Whether an outcome is a next state that passes a check. -/
def nextSatisfies (o : Host.Outcome State Fault Refusal) (p : State → Bool) : Bool :=
  match o with
  | .next t => p t
  | .fault _ => false
  | .refused _ => false

end Sys2Proof.Machine
end

