-- ==== Sys2Proof/Certificates/Slice0/Obligations.lean ====
section
/-! DEFINITION. The statements for the provers. Each docstring names the rule of spec/ it formalises. -/

open Sys2Proof Sys2Proof.Machine

/-! ## Encoding and decoding -/

/-- Messages written out byte by byte from R62 and R67 decode to the commands they stand for. -/
def Obligations.WrittenOutMessagesDecode : Prop :=
  decode [0x03, 0x00, 0x00, 0x00, 0xAA] = .command .genword [0xAA] ∧
  decode [0x02, 0x00, 0x00, 0x00, 0x02, 0x00, 0x00, 0x00, 0x05, 0x00, 0x00, 0x00, 0x11, 0x22, 0x33] =
    .command (.process [0x11, 0x22] 5) [0x33] ∧
  decode [0x01, 0x00, 0x00, 0x00, 0x01, 0x00, 0x00, 0x00, 0x02, 0x00, 0x00, 0x00, 0x55, 0x66, 0x77] =
    .command (.init [0x55] [0x66, 0x77]) [] ∧
  decode [0x02, 0x01, 0x00, 0x00] = .illegal 0x00000102 [] ∧
  decode [0x02, 0x00, 0x00] = .wait

/-- R62, R69: decoding the message of a well-formed command gives it back, with the rest of the stream. -/
def Obligations.MessageRoundTrip : Prop :=
  ∀ (i : Instr) (rest : List Byte), i.wellFormed = true → decode (encode i ++ rest) = .command i rest

/-- R62, R69: a command is decoded only from its own message, which is as long as R62 says. -/
def Obligations.DecodedMessageIsItsEncoding : Prop :=
  ∀ (bs : List Byte) (i : Instr) (rest : List Byte), decode bs = .command i rest →
    bs = encode i ++ rest ∧ i.wellFormed = true ∧ (encode i).length = messageBytes i

/-- R69: the decoder tells a message from its own bytes alone; the bytes after it do not matter. -/
def Obligations.DecodingIgnoresLaterBytes : Prop :=
  (∀ (bs more rest : List Byte) (i : Instr),
    decode bs = .command i rest → decode (bs ++ more) = .command i (rest ++ more)) ∧
  (∀ (bs more rest : List Byte) (hdr : Word),
    decode bs = .illegal hdr rest → decode (bs ++ more) = .illegal hdr (rest ++ more))

/-- R68: which headers are illegal, that there are three others, and what an illegal header does on a running core. -/
def Obligations.IllegalHeaders : Prop :=
  ∀ (m0 m1 m2 m3 : Byte) (rest : List Byte),
    let hdr := le32 m0 m1 m2 m3
    let illegal := decode (m0 :: m1 :: m2 :: m3 :: rest) = .illegal hdr rest
    (illegal ↔ 256 ≤ hdr.toNat ∨ hdr.toNat % 256 = 0 ∨ 4 ≤ hdr.toNat % 256) ∧
    (¬ illegal ↔ hdr = 0x00000001 ∨ hdr = 0x00000002 ∨ hdr = 0x00000003) ∧
    (illegal → ∀ s : State, s.halted = false → s.rx = m0 :: m1 :: m2 :: m3 :: rest →
      step s = .next { s with rx := rest, tx := s.tx ++ [0x05, 0x00, 0x00, 0x00], halted := true })

/-- R70: inside a message, and with nothing received, the core takes no step until bytes arrive or reset occurs; bytes that
complete the message exist. That the two waits have names of their own, and that a reset signal to come is taken there, are the
model's choices (assumption log 5 and 6). -/
def Obligations.IncompleteMessageWaits : Prop :=
  (∀ s : State, s.halted = false → decode s.rx = .wait → s.resets = [] →
    step s = .fault (if s.rx = [] then .idle else .truncatedMessage)) ∧
  (∀ (s : State) (bytes : List Byte) (later : List (List Byte)), s.halted = false → decode s.rx = .wait →
    s.resets = bytes :: later → step s = .next (s.takeReset bytes later)) ∧
  (∀ bs : List Byte, decode bs = .wait → ∃ missing : List Byte, decode (bs ++ missing) ≠ .wait)

/-- R12: the two byte and word conversions, by value, and that each is the inverse of the other. -/
def Obligations.LittleEndianConversions : Prop :=
  (∀ b0 b1 b2 b3 : Byte,
    (le32 b0 b1 b2 b3).toNat = b0.toNat + 2 ^ 8 * b1.toNat + 2 ^ 16 * b2.toNat + 2 ^ 24 * b3.toNat ∧
    bytesLeList (le32 b0 b1 b2 b3) = [b0, b1, b2, b3]) ∧
  (∀ w : Word, (bytesLeList w).map BitVec.toNat =
      [w.toNat % 256, w.toNat / 2 ^ 8 % 256, w.toNat / 2 ^ 16 % 256, w.toNat / 2 ^ 24] ∧
    le32 (byteOf w 0) (byteOf w 1) (byteOf w 2) (byteOf w 3) = w)

/-- R71: what the pseudo-instructions expand to, and that a program's stream decodes line by line. -/
def Obligations.AssemblyExpansions : Prop :=
  (∀ e : List Atom,
    (AsmLine.encrypt e).assemble = (AsmLine.process e none).assemble ∧
    (AsmLine.decrypt e).assemble = (AsmLine.process e none).assemble ∧
    (AsmLine.process e none).assemble = processCommand (exprBytes e)) ∧
  (∀ n : Nat,
    (AsmLine.keystream n).assemble = (AsmLine.process [.zeros n] none).assemble ∧
    (AsmLine.skip n).assemble = (AsmLine.process [.zeros n] none).assemble) ∧
  (∀ (l : AsmLine) (ls : List AsmLine), l.assemble.wellFormed = true →
    decode (assembleProgram (l :: ls)) = .command l.assemble (assembleProgram ls))

/-! ## Steps and runs -/

/-- R160, R69: when the front of the stream decodes to a command, a step of a running core is that command's execution with
the message consumed. -/
def Obligations.StepExecutesDecodedCommand : Prop :=
  ∀ (s : State) (i : Instr) (rest : List Byte), s.halted = false → decode s.rx = .command i rest →
    step s = exec i { s with rx := rest }

/-- R48, R60: a stream of whole messages runs as its commands, one at a time, in arrival order. -/
def Obligations.StreamRunsItsCommandsInOrder : Prop :=
  ∀ (cmds : List Instr) (s : State), (∀ i ∈ cmds, i.wellFormed = true) → s.halted = false → s.rx = [] →
    Host.Core.run core cmds.length { s with rx := cmds.flatMap encode } = execAll cmds s

/-- R220: the reset signal. Nothing is claimed of P, Q, c, buf and idx, which it leaves unspecified. That it is taken where the
core would otherwise wait is the model's choice (assumption log 6), and so is the last clause's stop, the model's form of R220's
"the core waits for a command" (assumption log 5). -/
def Obligations.ResetSignal : Prop :=
  ∀ (s : State) (bytes : List Byte) (later : List (List Byte)),
    (s.halted = true ∧ s.rx = [] ∨ s.halted = false ∧ decode s.rx = .wait) → s.resets = bytes :: later →
    ∃ t, step s = .next t ∧ t.ready = false ∧ t.halted = false ∧ t.rx = bytes ∧ t.resets = later ∧ t.tx = s.tx ∧
      (bytes = [] → later = [] → step t = .fault .idle)

/-- The only stops of the model (assumption log 5): nothing received, a message cut off, or a halted core, each with no reset to
come. No step is refused. -/
def Obligations.StopsAreExactlyTheWaits : Prop :=
  ∀ s : State,
    (step s = .fault .idle ↔ s.halted = false ∧ s.rx = [] ∧ s.resets = []) ∧
    (step s = .fault .truncatedMessage ↔ s.halted = false ∧ s.rx ≠ [] ∧ decode s.rx = .wait ∧ s.resets = []) ∧
    (step s = .fault .halted ↔ s.halted = true ∧ s.rx = [] ∧ s.resets = []) ∧
    (∀ r, step s ≠ .refused r)

/-- R3: the core never runs without a command: every run over the bytes the host has sent comes to a wait, after at most one
step for each byte and each reset. The wait is a stop of the model (assumption log 5), and the resets to come are its list
(assumption log 6). -/
def Obligations.EveryRunComesToAWait : Prop :=
  ∀ s : State, ∃ k f, k ≤ s.rx.length + (s.resets.map fun bytes => bytes.length + 1).sum + 1 ∧
    Host.Core.run core k s = .fault f

/-! ## Mixing, expansion and table load -/

/-- R100: f1, its linearity and its corner cases. -/
def Obligations.MixingFunctionF1 : Prop :=
  (∀ x : Word, f1 x = x.rotateRight 7 ^^^ x.rotateRight 18 ^^^ (x >>> 3)) ∧
  (∀ a b : Word, f1 (a ^^^ b) = f1 a ^^^ f1 b) ∧
  f1 0 = 0 ∧ f1 0xFFFFFFFF = 0x1FFFFFFF ∧ f1 0x00000001 = 0x02004000

/-- R101: f2, its linearity and its corner cases. -/
def Obligations.MixingFunctionF2 : Prop :=
  (∀ x : Word, f2 x = x.rotateRight 17 ^^^ x.rotateRight 19 ^^^ (x >>> 10)) ∧
  (∀ a b : Word, f2 (a ^^^ b) = f2 a ^^^ f2 b) ∧
  f2 0 = 0 ∧ f2 0xFFFFFFFF = 0x003FFFFF ∧ f2 0x00000001 = 0x0000A000

/-- R110, R111, R112: the seeds, byte by byte, and the recurrence, for all 2560 words of W. -/
def Obligations.ExpansionBufferWords : Prop :=
  ∀ key iv : List Byte, key.length = 32 → iv.length = 32 →
    let W := expandBuffer key iv
    W.size = 2560 ∧
    (∀ j k : Nat, j < 8 → k < 4 →
      byteOf (W.getD j 0) k = key.getD (4 * j + k) 0 ∧ byteOf (W.getD (8 + j) 0) k = iv.getD (4 * j + k) 0) ∧
    (∀ i : Nat, 16 ≤ i → i < 2560 →
      W.getD i 0 = f2 (W.getD (i - 2) 0) + W.getD (i - 7) 0 + f1 (W.getD (i - 15) 0) + W.getD (i - 16) 0 +
        BitVec.ofNat 32 i)

/-- R113: the tables before warm-up are two ranges of W; the counter then starts at 0 (R23). -/
def Obligations.TablesLoadedFromBuffer : Prop :=
  ∀ (key iv : List Byte) (j : TableIndex),
    (loadedGenerator key iv).P.read j = (expandBuffer key iv).getD (512 + j.toNat) 0 ∧
    (loadedGenerator key iv).Q.read j = (expandBuffer key iv).getD (1536 + j.toNat) 0 ∧
    (loadedGenerator key iv).c = 0

/-! ## The generator -/

/-- R120, R50: the five indices of a step, by the remainder of R10, pairwise distinct; so the output's `A[i12]` is not the
entry the step writes. -/
def Obligations.IndicesOfAStep : Prop :=
  ∀ c : StepCounter,
    let i := entryIndex c
    i.toNat = c.toNat % 1024 ∧
    ((i3 i).toNat : Int) = ((i.toNat : Int) - 3) % 1024 ∧
    ((i10 i).toNat : Int) = ((i.toNat : Int) - 10) % 1024 ∧
    ((i12 i).toNat : Int) = ((i.toNat : Int) - 12) % 1024 ∧
    ((i1023 i).toNat : Int) = ((i.toNat : Int) - 1023) % 1024 ∧
    (i1023 i).toNat = (i.toNat + 1) % 1024 ∧
    [i, i3 i, i10 i, i12 i, i1023 i].Nodup ∧
    (∀ A B : Table, (updatedTable A B i).read (i12 i) = A.read (i12 i))

/-- R121: h reads one entry of each quarter of the table; its corner case and its example. -/
def Obligations.CompressionFunction : Prop :=
  (∀ (T : Table) (u : Word), h T u =
    T[u.toNat % 256]'(by omega) + T[256 + u.toNat / 2 ^ 8 % 256]'(by omega) +
      T[512 + u.toNat / 2 ^ 16 % 256]'(by omega) + T[768 + u.toNat / 2 ^ 24 % 256]'(by omega)) ∧
  (∀ u : Word, h (Vector.replicate 1024 0xFFFFFFFF) u = 0xFFFFFFFC) ∧
  h (Vector.ofFn fun j : Fin 1024 => BitVec.ofNat 32 j.val) 0x03020100 = 0x00000606

/-- R122: the P-phase step. Every read is of the state before the step, except the output's P[i]. `(x ^ y)[9:0]` is the value
modulo 1024 (R10). -/
def Obligations.PPhaseStep : Prop :=
  ∀ g : GeneratorState, g.c.toNat < 1024 →
    let i := entryIndex g.c
    let x := g.P.read (i3 i)
    let y := g.P.read (i1023 i)
    let new := g.P.read i + g.P.read (i10 i) + (x.rotateRight 10 ^^^ y.rotateRight 23) +
      g.Q[(x ^^^ y).toNat % 1024]'(by omega)
    (gen g).2.P.read i = new ∧
    (∀ j, j ≠ i → (gen g).2.P.read j = g.P.read j) ∧
    (gen g).2.Q = g.Q ∧
    (gen g).1 = h g.Q (g.P.read (i12 i)) ^^^ new

/-- R123: the Q-phase step, the roles of P and Q swapped. `(x ^ y)[9:0]` is the value modulo 1024 (R10). -/
def Obligations.QPhaseStep : Prop :=
  ∀ g : GeneratorState, 1024 ≤ g.c.toNat →
    let i := entryIndex g.c
    let x := g.Q.read (i3 i)
    let y := g.Q.read (i1023 i)
    let new := g.Q.read i + g.Q.read (i10 i) + (x.rotateRight 10 ^^^ y.rotateRight 23) +
      g.P[(x ^^^ y).toNat % 1024]'(by omega)
    (gen g).2.Q.read i = new ∧
    (∀ j, j ≠ i → (gen g).2.Q.read j = g.Q.read j) ∧
    (gen g).2.P = g.P ∧
    (gen g).1 = h g.P (g.Q.read (i12 i)) ^^^ new

/-- R125: the counter advances by one modulo 2048 at each step, from 2047 back to 0. -/
def Obligations.CounterAdvance : Prop :=
  ∀ g : GeneratorState, (gen g).2.c.toNat = (g.c.toNat + 1) % 2048

/-- R127, R129: the counter after n steps; warm-up leaves it at 0; the n-th word after warm-up is produced with
`c = n mod 2048`; and the words of a run of steps are `ks_word` in order. -/
def Obligations.KeystreamWordNumbering : Prop :=
  (∀ (n : Nat) (g : GeneratorState), (genSteps n g).c.toNat = (g.c.toNat + n) % 2048) ∧
  (∀ key iv : List Byte, (freshGenerator key iv).c = 0) ∧
  (∀ (key iv : List Byte) (n : Nat), (genSteps n (freshGenerator key iv)).c.toNat = n % 2048) ∧
  (∀ (n : Nat) (g : GeneratorState), genWords n g = (List.range n).map (ksWord g))

/-- R23, R49: n steps change an entry of P or Q only at the phase and index of one of those steps. -/
def Obligations.GeneratorStepsFrame : Prop :=
  ∀ (n : Nat) (g : GeneratorState) (j : TableIndex),
    ((∀ m < n, (g.c.toNat + m) % 2048 ≠ j.toNat) → (genSteps n g).P.read j = g.P.read j) ∧
    ((∀ m < n, (g.c.toNat + m) % 2048 ≠ 1024 + j.toNat) → (genSteps n g).Q.read j = g.Q.read j)

/-! ## The byte layer -/

/-- R143: a PROCESS of length 0 changes nothing. -/
def Obligations.ZeroLengthProcess : Prop :=
  (∀ k : CipherState, process k [] = ([], k)) ∧
  (∀ s : State, s.halted = false → s.ready = true →
    exec (.process [] 0) s = .next { s with tx := s.tx ++ statusBytes .ok })

/-- R144: the generator steps a PROCESS of n bytes makes and the index and counter it leaves. -/
def Obligations.ProcessWordCountAndIndex : Prop :=
  ∀ (k : CipherState) (input : List Byte),
    let d := k.idx.val
    let n := input.length
    let a := min d n
    let rem := n - a
    let words := (rem + 3) / 4
    let k' := (process k input).2
    k'.gen = genSteps words k.gen ∧
    k'.idx.val = (if n ≤ d then d - n else (4 - rem % 4) % 4) ∧
    k'.gen.c.toNat = (k.gen.c.toNat + words) % 2048

/-- R141: the process algorithm in closed form: the input XOR the pending bytes and then the bytes of new words; buf is
rewritten, whole, only when trailing bytes are left for step (c). -/
def Obligations.ProcessClosedForm : Prop :=
  ∀ (k : CipherState) (input : List Byte),
    let rem := input.length - min k.idx.val input.length
    let words := (rem + 3) / 4
    let r := process k input
    r.1 = xorBytes input (k.pending ++ wordBytes (genWords words k.gen)) ∧
    r.1.length = input.length ∧
    r.2.gen = genSteps words k.gen ∧
    r.2.buf = (if rem % 4 = 0 then k.buf else bytesLe (ksWord k.gen (words - 1))) ∧
    r.2.idx.val = (if input.length ≤ k.idx.val then k.idx.val - input.length else (4 - rem % 4) % 4)

/-- R145: splitting the input of a PROCESS changes neither the output nor the state a later command can see, for two parts
as commands and for every partition into chunks. -/
def Obligations.ProcessIsSplittable : Prop :=
  (∀ (s : State) (D1 D2 : List Byte), s.halted = false → s.ready = true → (D1 ++ D2).length < 2 ^ 32 →
    ∃ (t1 t2 u : State) (out1 out2 : List Byte),
      exec (processCommand D1) s = .next t1 ∧ exec (processCommand D2) t1 = .next t2 ∧
      exec (processCommand (D1 ++ D2)) s = .next u ∧
      out1.length = D1.length ∧ out2.length = D2.length ∧
      t1.tx = s.tx ++ statusBytes .ok ++ out1 ∧ t2.tx = t1.tx ++ statusBytes .ok ++ out2 ∧
      u.tx = s.tx ++ statusBytes .ok ++ (out1 ++ out2) ∧
      t2.cipher.Agrees u.cipher) ∧
  (∀ (k : CipherState) (chunks : List (List Byte)),
    (processChunks k chunks).1 = (process k chunks.flatten).1 ∧
    (processChunks k chunks).2.Agrees (process k chunks.flatten).2)

/-- R146: a PROCESS of four bytes makes one generator step and leaves idx as it was; after a PROCESS of a multiple of four
bytes from idx = 0, and on a fresh instance, no byte is pending. -/
def Obligations.FourByteProcess : Prop :=
  (∀ (s : State) (input : List Byte), s.halted = false → s.ready = true → input.length = 4 →
    ∃ t, exec (processCommand input) s = .next t ∧
      t.cipher.gen = (gen s.cipher.gen).2 ∧ t.cipher.idx = s.cipher.idx) ∧
  (∀ (k : CipherState) (input : List Byte), k.idx = 0 → input.length % 4 = 0 → (process k input).2.idx = 0) ∧
  (∀ key iv : List Byte, (freshCipher key iv).idx = 0)

/-- R142: the output contract. From INIT on, with `pks` the bytes of the words generated inside PROCESS and `emitted` the
number of them used, each PROCESS answers its input XOR `pks` from there and GENWORD changes neither; and with no
GENWORD, a sequence of PROCESS commands answers the keystream of the key and IV from byte 0. -/
def Obligations.ProcessOutputContract : Prop :=
  (∀ (key iv : List Byte) (s : State), s.halted = false → key.length = 32 → iv.length = 32 →
    ∃ t, exec (.init key iv) s = .next t ∧ t.ready = true ∧ t.halted = false ∧ t.cipher.PendingOf [] 0) ∧
  (∀ (s : State) (pks : List Byte) (emitted : Nat), s.halted = false → s.ready = true →
    s.cipher.PendingOf pks emitted →
    (∃ t, exec .genword s = .next t ∧ t.cipher.PendingOf pks emitted) ∧
    (∀ input : List Byte, input.length < 2 ^ 32 →
      let pks' := pks ++ wordBytes (genWords (wordCount s.cipher.idx.val input.length) s.cipher.gen)
      ∃ t, exec (processCommand input) s = .next t ∧
        t.cipher.gen = genSteps (wordCount s.cipher.idx.val input.length) s.cipher.gen ∧
        input.length ≤ (pks'.drop emitted).length ∧
        t.tx = s.tx ++ statusBytes .ok ++ xorBytes input (pks'.drop emitted) ∧
        t.cipher.PendingOf pks' (emitted + input.length))) ∧
  (∀ (key iv : List Byte) (chunks : List (List Byte)) (s : State), s.halted = false → key.length = 32 →
    iv.length = 32 → (∀ d ∈ chunks, d.length < 2 ^ 32) →
    ∃ t, execAll (.init key iv :: chunks.map processCommand) s = .next t ∧
      t.tx = s.tx ++ statusBytes .ok ++ keystreamResponses (freshGenerator key iv) 0 chunks)

/-- R71, the involution property: processing the output from the same instance gives the input back, and leaves the same
instance. -/
def Obligations.ProcessIsAnInvolution : Prop :=
  ∀ (s s' : State) (D : List Byte), s.halted = false → s.ready = true → s'.halted = false → s'.ready = true →
    s'.cipher = s.cipher → D.length < 2 ^ 32 →
    ∃ (t t' : State) (out : List Byte),
      exec (processCommand D) s = .next t ∧ t.tx = s.tx ++ statusBytes .ok ++ out ∧
      exec (processCommand out) s' = .next t' ∧ t'.tx = s'.tx ++ statusBytes .ok ++ D ∧
      t'.cipher = t.cipher

/-! ## The commands -/

/-- R161: INIT, on every core that is not halted: its two errors, which change nothing, and its success, which sets P, Q, c,
buf, idx and ready whatever they were and leaves `c = 0`. -/
def Obligations.InitCommand : Prop :=
  ∀ (key iv : List Byte) (s : State), s.halted = false →
    (key.length ≠ 32 → exec (.init key iv) s = .next { s with tx := s.tx ++ statusBytes .invalidKeyLength }) ∧
    (key.length = 32 → iv.length ≠ 32 →
      exec (.init key iv) s = .next { s with tx := s.tx ++ statusBytes .invalidIVLength }) ∧
    (key.length = 32 → iv.length = 32 → ∃ k : CipherState,
      exec (.init key iv) s = .next { s with cipher := k, ready := true, tx := s.tx ++ statusBytes .ok } ∧
      Config.warmupSteps = 4096 ∧
      k.gen = genSteps Config.warmupSteps (loadedGenerator key iv) ∧
      k.gen.c = 0 ∧ k.buf.toList = [0, 0, 0, 0] ∧ k.idx = 0)

/-- R162: PROCESS, on every core that is not halted: its two errors, which change nothing, and its success, which answers as
many bytes as it was given and changes the instance only. -/
def Obligations.ProcessCommand : Prop :=
  ∀ (input : List Byte) (outLen : Word) (s : State), s.halted = false →
    (s.ready = false →
      exec (.process input outLen) s = .next { s with tx := s.tx ++ statusBytes .notInitialized }) ∧
    (s.ready = true → outLen.toNat ≠ input.length →
      exec (.process input outLen) s = .next { s with tx := s.tx ++ statusBytes .lengthMismatch }) ∧
    (s.ready = true → outLen.toNat = input.length →
      exec (.process input outLen) s =
        .next { s with cipher := (process s.cipher input).2
                       tx := s.tx ++ statusBytes .ok ++ (process s.cipher input).1 } ∧
      (process s.cipher input).1.length = input.length)

/-- R163: GENWORD, on every core that is not halted: its error, which changes nothing, and its success, which answers one
generator word and neither reads nor writes buf and idx. -/
def Obligations.GenwordCommand : Prop :=
  ∀ s : State, s.halted = false →
    (s.ready = false → exec .genword s = .next { s with tx := s.tx ++ statusBytes .notInitialized }) ∧
    (s.ready = true →
      exec .genword s =
        .next { s with cipher := { gen := (gen s.cipher.gen).2, buf := s.cipher.buf, idx := s.cipher.idx }
                       tx := s.tx ++ statusBytes .ok ++ bytesLeList (gen s.cipher.gen).1 })

/-- The frame of GENWORD (R163, R49): one entry of the table in phase, c and the response stream, and nothing else. -/
def Obligations.GenwordFrame : Prop :=
  ∀ s : State, s.halted = false → s.ready = true →
    ∃ t, exec .genword s = .next t ∧
      t.cipher.buf = s.cipher.buf ∧ t.cipher.idx = s.cipher.idx ∧ t.cipher.pending = s.cipher.pending ∧
      t.ready = s.ready ∧ t.halted = s.halted ∧ t.rx = s.rx ∧ t.resets = s.resets ∧ t.draws = s.draws ∧
      (∀ j : TableIndex, s.cipher.gen.c.toNat ≠ j.toNat → t.cipher.gen.P.read j = s.cipher.gen.P.read j) ∧
      (∀ j : TableIndex, s.cipher.gen.c.toNat ≠ 1024 + j.toNat → t.cipher.gen.Q.read j = s.cipher.gen.Q.read j) ∧
      t.cipher.gen.c.toNat = (s.cipher.gen.c.toNat + 1) % 2048

/-- The frame of PROCESS (R162, R141): the entries of P and Q of its generator steps, c, idx, buf only where step (c) runs,
and the response stream, and nothing else. -/
def Obligations.ProcessFrame : Prop :=
  ∀ (s : State) (input : List Byte), s.halted = false → s.ready = true → input.length < 2 ^ 32 →
    let rem := input.length - min s.cipher.idx.val input.length
    let c := s.cipher.gen.c.toNat
    ∃ t, exec (processCommand input) s = .next t ∧
      t.ready = s.ready ∧ t.halted = s.halted ∧ t.rx = s.rx ∧ t.resets = s.resets ∧ t.draws = s.draws ∧
      (rem % 4 = 0 → t.cipher.buf = s.cipher.buf) ∧
      (∀ j : TableIndex, (∀ m < (rem + 3) / 4, (c + m) % 2048 ≠ j.toNat) →
        t.cipher.gen.P.read j = s.cipher.gen.P.read j) ∧
      (∀ j : TableIndex, (∀ m < (rem + 3) / 4, (c + m) % 2048 ≠ 1024 + j.toNat) →
        t.cipher.gen.Q.read j = s.cipher.gen.Q.read j)

/-- R225: a GENWORD between PROCESS commands. The pending bytes come out first in the next PROCESS, and after them the words
after GENWORD's own. -/
def Obligations.GenwordBetweenProcessCommands : Prop :=
  ∀ (s : State) (input : List Byte), s.halted = false → s.ready = true → input.length < 2 ^ 32 →
    ∃ t u, exec .genword s = .next t ∧ exec (processCommand input) t = .next u ∧
      t.tx = s.tx ++ statusBytes .ok ++ bytesLeList (ksWord s.cipher.gen 0) ∧
      u.tx = t.tx ++ statusBytes .ok ++ xorBytes input (s.cipher.pending ++
        (List.range (wordCount s.cipher.idx.val input.length)).flatMap
          fun m => bytesLeList (ksWord s.cipher.gen (m + 1)))

/-- R51: two successful INITs with the same key and IV leave the same instance, whatever was there before. -/
def Obligations.InitIsIdempotent : Prop :=
  ∀ (key iv : List Byte) (s s' : State), s.halted = false → s'.halted = false → key.length = 32 → iv.length = 32 →
    ∃ t t' u, exec (.init key iv) s = .next t ∧ exec (.init key iv) s' = .next t' ∧
      t.cipher = t'.cipher ∧ t.ready = true ∧ t'.ready = true ∧
      exec (.init key iv) t = .next u ∧ u.cipher = t.cipher ∧ u.ready = t.ready ∧ u.halted = t.halted

/-! ## Errors and whole-machine rules -/

/-- R204: exactly one status, the first condition that holds: halted, then an illegal header, then the command's own checks
in their order. After the status come the data bytes of R64 and nothing more, on an error none. -/
def Obligations.FirstConditionIsReported : Prop :=
  (∀ s t : State, s.halted = true → step s = .next t → t.tx = s.tx) ∧
  (∀ (s : State) (hdr : Word) (rest : List Byte), s.halted = false → decode s.rx = .illegal hdr rest →
    ∃ t, step s = .next t ∧ t.tx = s.tx ++ statusBytes .illegalCommand) ∧
  (∀ (i : Instr) (s : State), s.halted = false →
    ∃ t data, exec i s = .next t ∧ t.tx = s.tx ++ statusBytes (reportedStatus i s) ++ data ∧
      (reportedStatus i s ≠ .ok → data = []) ∧
      data.length = responseDataLength i (reportedStatus i s))

/-- R160, R200, R205: an error of a command changes nothing but the response stream, and its response is the code alone. -/
def Obligations.ErrorsLeaveTheStateUnchanged : Prop :=
  ∀ (i : Instr) (s : State), s.halted = false → reportedStatus i s ≠ .ok →
    exec i s = .next { s with tx := s.tx ++ statusBytes (reportedStatus i s) }

/-- R64, R200: the response header of each status code, by value, and the data bytes that follow it, for each command and
status. -/
def Obligations.ResponseDataBytes : Prop :=
  (∀ (st : Status) (data : List Byte), Response.bytes { status := st, data := data } = statusBytes st ++ data) ∧
  statusBytes .ok = [0x00, 0x00, 0x00, 0x00] ∧ statusBytes .invalidKeyLength = [0x01, 0x00, 0x00, 0x00] ∧
  statusBytes .invalidIVLength = [0x02, 0x00, 0x00, 0x00] ∧ statusBytes .lengthMismatch = [0x03, 0x00, 0x00, 0x00] ∧
  statusBytes .notInitialized = [0x04, 0x00, 0x00, 0x00] ∧ statusBytes .illegalCommand = [0x05, 0x00, 0x00, 0x00] ∧
  (∀ (i : Instr) (s : State), s.halted = false →
    ∃ t data, exec i s = .next t ∧ t.tx = s.tx ++ statusBytes (reportedStatus i s) ++ data ∧
      data.length = responseDataLength i (reportedStatus i s) ∧
      (i = .genword → reportedStatus i s = .ok → data = bytesLeList (gen s.cipher.gen).1)) ∧
  (∀ (s : State) (hdr : Word) (rest : List Byte), s.halted = false → decode s.rx = .illegal hdr rest →
    ∃ t, step s = .next t ∧ t.tx = s.tx ++ [0x05, 0x00, 0x00, 0x00] ∧ t.halted = true)

/-- R165: the halted core swallows every byte and every command, INIT among them, without a response; only a reset signal
leaves the state, and being stuck there is no successful end. That one step swallows all the bytes is the model's choice
(assumption log 9), and so is the list of resets (log 6). -/
def Obligations.HaltedCoreSwallows : Prop :=
  ∀ s : State, s.halted = true →
    (∀ i, exec i s = .next s) ∧
    (s.rx ≠ [] → step s = .next { s with rx := [] }) ∧
    (∀ t, step s = .next t → t.tx = s.tx ∧ (t.halted = true ∧ t = { s with rx := [] } ∨
      s.rx = [] ∧ ∃ bytes later, s.resets = bytes :: later ∧ t = s.takeReset bytes later)) ∧
    (s.rx = [] → s.resets = [] → step s = .fault .halted ∧ Fault.endsWell .halted = false)

/-- R25: ready is set only by a successful INIT, cleared only by reset, unchanged by a failed INIT, and needed by PROCESS
and GENWORD. -/
def Obligations.ReadyFlag : Prop :=
  (∀ s t : State, step s = .next t → s.ready = true → t.ready = false →
    ∃ bytes later, s.resets = bytes :: later ∧ t = s.takeReset bytes later) ∧
  (∀ s t : State, step s = .next t → s.ready = false → t.ready = true →
    ∃ key iv rest, decode s.rx = .command (.init key iv) rest ∧ key.length = 32 ∧ iv.length = 32) ∧
  (∀ (key iv : List Byte) (s : State), s.halted = false →
    ∃ t, exec (.init key iv) s = .next t ∧
      t.ready = (if key.length = 32 ∧ iv.length = 32 then true else s.ready)) ∧
  (∀ (i : Instr) (s : State), s.halted = false → s.ready = false →
    (i = .genword ∨ ∃ input outLen, i = .process input outLen) →
    exec i s = .next { s with tx := s.tx ++ statusBytes .notInitialized })

/-- R23: apart from a successful INIT and from reset, a step changes P, Q and c by generator steps alone. -/
def Obligations.OnlyGeneratorStepsChangeTheGenerator : Prop :=
  ∀ s t : State, step s = .next t → t.draws = s.draws →
    (∃ key iv rest, decode s.rx = .command (.init key iv) rest ∧ key.length = 32 ∧ iv.length = 32 ∧
      t.cipher = freshCipher key iv) ∨
    (∃ n, t.cipher.gen = genSteps n s.cipher.gen ∧ t.cipher.gen.c.toNat = (s.cipher.gen.c.toNat + n) % 2048 ∧
      (n ≠ 0 → s.ready = true ∧ s.halted = false))

/-- R32, R129, R24: every step keeps `KeystreamInv`: on a ready core the generator is the warmed-up generator of some key and IV
after some number of steps, and the pending bytes are of one of its words. -/
def Obligations.KeystreamInvariantKept : Prop :=
  ∀ s t : State, KeystreamInv s → step s = .next t → KeystreamInv t

/-- `KeystreamInv` holds after reset. -/
def Obligations.KeystreamInvariantAtReset : Prop :=
  KeystreamInv State.reset ∧ State.reset.ready = false ∧ State.reset.halted = false

/-- R34: after reset `ready` and `halted` are 0, and the values of P, Q, c, buf and idx cannot be observed: two cores that are
not ready and differ in those alone answer the same bytes in every run and stop in the same way. -/
def Obligations.ResetContentsUnobservable : Prop :=
  State.reset.ready = false ∧ State.reset.halted = false ∧
  ∀ (k : Nat) (s s' : State), SameButCipher s s' → s.ready = false →
    (∀ t, Host.Core.run core k s = .next t →
      ∃ t', Host.Core.run core k s' = .next t' ∧ t'.tx = t.tx ∧ t'.ready = t.ready ∧ t'.halted = t.halted ∧
        (t.ready = true → t' = t)) ∧
    (∀ f, Host.Core.run core k s = .fault f → Host.Core.run core k s' = .fault f)
end

