-- ==== Sys2Proof/Laws/Operands.lean ====
section
/-! SUPPORT. Laws of the byte and word conversions (Machine/Operands.lean). -/

namespace Sys2Proof.Machine

theorem bytesLeList_eq (w : Word) : bytesLeList w = [byteOf w 0, byteOf w 1, byteOf w 2, byteOf w 3] := rfl

@[simp] theorem low10_toNat (v : Word) : (low10 v).toNat = v.toNat % 1024 := by simp [low10]

@[simp] theorem bytesLeList_length (w : Word) : (bytesLeList w).length = 4 := rfl

@[simp] theorem bytesLe_toList (w : Word) : (bytesLe w).toList = bytesLeList w := rfl

theorem byteOf_toNat (w : Word) (k : Nat) : (byteOf w k).toNat = w.toNat / 2 ^ (8 * k) % 256 := by
  simp [byteOf, BitVec.extractLsb'_toNat, Nat.shiftRight_eq_div_pow]

theorem le32_toNat (b0 b1 b2 b3 : Byte) :
    (le32 b0 b1 b2 b3).toNat = b0.toNat + 256 * b1.toNat + 65536 * b2.toNat + 16777216 * b3.toNat := by
  have h0 := b0.isLt
  have h1 := b1.isLt
  have h2 := b2.isLt
  have h3 := b3.isLt
  simp only [le32, BitVec.toNat_add, BitVec.toNat_shiftLeft, BitVec.toNat_setWidth, Nat.shiftLeft_eq]
  omega

/-- Splitting a word into bytes and joining them gives the word back (R45). -/
theorem le32_byteOf (w : Word) : le32 (byteOf w 0) (byteOf w 1) (byteOf w 2) (byteOf w 3) = w := by
  apply BitVec.eq_of_toNat_eq
  have h := w.isLt
  simp only [le32_toNat, byteOf_toNat]
  omega

/-- Joining four bytes and splitting the word gives the bytes back (R45). -/
theorem bytesLeList_le32 (b0 b1 b2 b3 : Byte) : bytesLeList (le32 b0 b1 b2 b3) = [b0, b1, b2, b3] := by
  have h0 := b0.isLt
  have h1 := b1.isLt
  have h2 := b2.isLt
  have h3 := b3.isLt
  simp only [bytesLeList_eq, List.cons.injEq, and_true]
  refine ⟨?_, ?_, ?_, ?_⟩ <;> apply BitVec.eq_of_toNat_eq <;> simp only [byteOf_toNat, le32_toNat] <;> omega

/-- `ror` is the rotation it is named after (R9). -/
theorem ror_eq_rotateRight (x : Word) {n : Nat} (hn : n < 32) : ror x n = x.rotateRight n := by
  simp [ror, BitVec.rotateRight_def, Nat.mod_eq_of_lt hn]

/-- A rotation distributes over exclusive OR. -/
theorem ror_xor (a b : Word) {n : Nat} (hn : n < 32) : ror (a ^^^ b) n = ror a n ^^^ ror b n := by
  simp only [ror_eq_rotateRight _ hn]
  ext i hi
  simp only [BitVec.getElem_rotateRight, BitVec.getElem_xor]
  split <;> simp

theorem zextWord_toNat {n : Nat} (hn : n < 2 ^ 32) : (zextWord n).toNat = n := by
  simpa [zextWord] using hn

theorem zextWord_toNat_self (w : Word) : zextWord w.toNat = w := by simp [zextWord]

theorem xorBytes_length_of_le {a b : List Byte} (hab : a.length ≤ b.length) : (xorBytes a b).length = a.length := by
  simpa [xorBytes] using hab

theorem xorBytes_append {a a' b b' : List Byte} (hab : a.length = b.length) :
    xorBytes (a ++ a') (b ++ b') = xorBytes a b ++ xorBytes a' b' := by
  simp [xorBytes, List.zipWith_append hab]

@[simp] theorem xorBytes_nil_left (b : List Byte) : xorBytes [] b = [] := rfl

@[simp] theorem xorBytes_cons_cons (x y : Byte) (a b : List Byte) :
    xorBytes (x :: a) (y :: b) = (x ^^^ y) :: xorBytes a b := rfl

/-- Applying the same keystream bytes twice gives the input back. -/
theorem xorBytes_involutive {a b : List Byte} (hab : a.length ≤ b.length) : xorBytes (xorBytes a b) b = a := by
  induction a generalizing b with
  | nil => rfl
  | cons x a ih =>
    cases b with
    | nil => simp at hab
    | cons y b => simp [ih (by simpa using hab)]

end Sys2Proof.Machine
end

