-- ==== Sys2Proof/Laws/State.lean ====
section
/-! SUPPORT. One lemma per field per state update (Machine/Ops.lean), each true by rfl, so that no later proof unfolds a record
update. -/

namespace Sys2Proof.Machine

variable (s : State)

@[simp] theorem State.respond_cipher (r : Response) : (s.respond r).cipher = s.cipher := rfl
@[simp] theorem State.respond_ready (r : Response) : (s.respond r).ready = s.ready := rfl
@[simp] theorem State.respond_halted (r : Response) : (s.respond r).halted = s.halted := rfl
@[simp] theorem State.respond_rx (r : Response) : (s.respond r).rx = s.rx := rfl
@[simp] theorem State.respond_resets (r : Response) : (s.respond r).resets = s.resets := rfl
@[simp] theorem State.respond_tx (r : Response) : (s.respond r).tx = s.tx ++ r.bytes := rfl
@[simp] theorem State.respond_draws (r : Response) : (s.respond r).draws = s.draws := rfl

@[simp] theorem State.raiseError_cipher (e : Status) : (s.raiseError e).cipher = s.cipher := rfl
@[simp] theorem State.raiseError_ready (e : Status) : (s.raiseError e).ready = s.ready := rfl
@[simp] theorem State.raiseError_halted (e : Status) : (s.raiseError e).halted = (s.halted || e == .illegalCommand) := rfl
@[simp] theorem State.raiseError_rx (e : Status) : (s.raiseError e).rx = s.rx := rfl
@[simp] theorem State.raiseError_resets (e : Status) : (s.raiseError e).resets = s.resets := rfl
@[simp] theorem State.raiseError_tx (e : Status) : (s.raiseError e).tx = s.tx ++ (Response.mk e []).bytes := rfl
@[simp] theorem State.raiseError_draws (e : Status) : (s.raiseError e).draws = s.draws := rfl

@[simp] theorem State.consume_cipher (rest : List Byte) : (s.consume rest).cipher = s.cipher := rfl
@[simp] theorem State.consume_ready (rest : List Byte) : (s.consume rest).ready = s.ready := rfl
@[simp] theorem State.consume_halted (rest : List Byte) : (s.consume rest).halted = s.halted := rfl
@[simp] theorem State.consume_rx (rest : List Byte) : (s.consume rest).rx = rest := rfl
@[simp] theorem State.consume_resets (rest : List Byte) : (s.consume rest).resets = s.resets := rfl
@[simp] theorem State.consume_tx (rest : List Byte) : (s.consume rest).tx = s.tx := rfl
@[simp] theorem State.consume_draws (rest : List Byte) : (s.consume rest).draws = s.draws := rfl

@[simp] theorem State.setCipher_cipher (k : CipherState) : (s.setCipher k).cipher = k := rfl
@[simp] theorem State.setCipher_ready (k : CipherState) : (s.setCipher k).ready = s.ready := rfl
@[simp] theorem State.setCipher_halted (k : CipherState) : (s.setCipher k).halted = s.halted := rfl
@[simp] theorem State.setCipher_rx (k : CipherState) : (s.setCipher k).rx = s.rx := rfl
@[simp] theorem State.setCipher_resets (k : CipherState) : (s.setCipher k).resets = s.resets := rfl
@[simp] theorem State.setCipher_tx (k : CipherState) : (s.setCipher k).tx = s.tx := rfl
@[simp] theorem State.setCipher_draws (k : CipherState) : (s.setCipher k).draws = s.draws := rfl

@[simp] theorem State.setReady_cipher : s.setReady.cipher = s.cipher := rfl
@[simp] theorem State.setReady_ready : s.setReady.ready = true := rfl
@[simp] theorem State.setReady_halted : s.setReady.halted = s.halted := rfl
@[simp] theorem State.setReady_rx : s.setReady.rx = s.rx := rfl
@[simp] theorem State.setReady_resets : s.setReady.resets = s.resets := rfl
@[simp] theorem State.setReady_tx : s.setReady.tx = s.tx := rfl
@[simp] theorem State.setReady_draws : s.setReady.draws = s.draws := rfl

@[simp] theorem State.takeReset_cipher (bytes : List Byte) (later : List (List Byte)) : (s.takeReset bytes later).cipher = unspecifiedCipher s.draws := rfl
@[simp] theorem State.takeReset_ready (bytes : List Byte) (later : List (List Byte)) : (s.takeReset bytes later).ready = false := rfl
@[simp] theorem State.takeReset_halted (bytes : List Byte) (later : List (List Byte)) : (s.takeReset bytes later).halted = false := rfl
@[simp] theorem State.takeReset_rx (bytes : List Byte) (later : List (List Byte)) : (s.takeReset bytes later).rx = bytes := rfl
@[simp] theorem State.takeReset_resets (bytes : List Byte) (later : List (List Byte)) : (s.takeReset bytes later).resets = later := rfl
@[simp] theorem State.takeReset_tx (bytes : List Byte) (later : List (List Byte)) : (s.takeReset bytes later).tx = s.tx := rfl
@[simp] theorem State.takeReset_draws (bytes : List Byte) (later : List (List Byte)) : (s.takeReset bytes later).draws = s.draws + 1 := rfl

/-- Two states are equal when their fields are. -/
theorem State.eq_of_fields {s t : State} (h1 : s.cipher = t.cipher) (h2 : s.ready = t.ready) (h3 : s.halted = t.halted)
    (h4 : s.rx = t.rx) (h5 : s.resets = t.resets) (h6 : s.tx = t.tx) (h7 : s.draws = t.draws) : s = t := by
  cases s; cases t; simp_all

/-- The bytes of a response: four header bytes, the status code first, then the data (R64). -/
theorem Response.bytes_eq (r : Response) : r.bytes = [r.status.code, 0, 0, 0] ++ r.data := by
  obtain ⟨st, data⟩ := r
  have h : bytesLeList (st.code.setWidth 32) = [st.code, 0, 0, 0] := by cases st <;> decide
  simp [Response.bytes, h]

/-- An error other than IllegalCommand changes the response stream alone (R205). -/
theorem State.raiseError_eq {e : Status} (he : e ≠ .illegalCommand) :
    s.raiseError e = { s with tx := s.tx ++ [e.code, 0, 0, 0] } := by
  apply State.eq_of_fields <;> simp [Response.bytes_eq, he]

/-- IllegalCommand also halts the core (R164). -/
theorem State.raiseError_illegalCommand :
    s.raiseError .illegalCommand = { s with halted := true, tx := s.tx ++ [0x05, 0, 0, 0] } := by
  apply State.eq_of_fields <;> simp [Response.bytes_eq]
  rfl

end Sys2Proof.Machine
end

