-- ==== Sys2Proof/Laws/Generator.lean ====
section
/-! SUPPORT. Laws of the tables and of the generator step (Machine/Ops.lean, Machine/Generator.lean). -/

namespace Sys2Proof.Machine

@[simp] theorem Table.read_write_same (T : Table) (j : TableIndex) (v : Word) : (T.write j v).read j = v := by
  simp [Table.read, Table.write]

theorem Table.read_write_other (T : Table) {j k : TableIndex} (v : Word) (hjk : j ≠ k) : (T.write j v).read k = T.read k := by
  have hn : j.toNat ≠ k.toNat := fun h => hjk (BitVec.eq_of_toNat_eq h)
  simp [Table.read, Table.write, Vector.getElem_set_ne, hn]

/-- An entry chosen by the low ten bits of a word (R10, R122). -/
theorem Table.read_low10 (T : Table) (v : Word) : T.read (low10 v) = T[v.toNat % 1024]'(by omega) := by simp [Table.read]

theorem Table.ext_read {T U : Table} (hTU : ∀ j : TableIndex, T.read j = U.read j) : T = U := by
  apply Vector.ext
  intro n hn
  have h := hTU (BitVec.ofNat 10 n)
  simpa [Table.read, Nat.mod_eq_of_lt hn] using h

theorem updatedTable_read_entry (A B : Table) (i : TableIndex) : (updatedTable A B i).read i = updatedEntry A B i := by
  simp [updatedTable]

theorem updatedTable_read_other (A B : Table) {i j : TableIndex} (hij : i ≠ j) :
    (updatedTable A B i).read j = A.read j := Table.read_write_other A _ hij

/-- Everything one generator step does (R126): one of the two phases, one entry written, the counter advanced. -/
theorem gen_cases (g : GeneratorState) :
    (g.c.toNat < 1024 ∧
      gen g = (outputWord (updatedTable g.P g.Q (entryIndex g.c)) g.Q (entryIndex g.c),
        { P := updatedTable g.P g.Q (entryIndex g.c), Q := g.Q, c := g.c + 1 })) ∨
    (1024 ≤ g.c.toNat ∧
      gen g = (outputWord (updatedTable g.Q g.P (entryIndex g.c)) g.P (entryIndex g.c),
        { P := g.P, Q := updatedTable g.Q g.P (entryIndex g.c), c := g.c + 1 })) := by
  by_cases hc : g.c.toNat < 1024
  · exact .inl ⟨hc, by simp [gen, inPPhase, hc]⟩
  · exact .inr ⟨by omega, by simp [gen, inPPhase, hc]⟩

@[simp] theorem gen_c (g : GeneratorState) : (gen g).2.c = g.c + 1 := by
  obtain ⟨_, h⟩ | ⟨_, h⟩ := gen_cases g <;> rw [h]

@[simp] theorem genSteps_zero (g : GeneratorState) : genSteps 0 g = g := rfl

theorem genSteps_succ (n : Nat) (g : GeneratorState) : genSteps (n + 1) g = genSteps n (gen g).2 := rfl

theorem genSteps_add (m n : Nat) (g : GeneratorState) : genSteps (m + n) g = genSteps n (genSteps m g) := by
  induction m generalizing g with
  | zero => simp [genSteps]
  | succ m ih => rw [Nat.succ_add]; exact ih _

/-- The counter after n steps. -/
theorem genSteps_c (n : Nat) (g : GeneratorState) : (genSteps n g).c = g.c + BitVec.ofNat 11 n := by
  induction n generalizing g with
  | zero => simp [genSteps]
  | succ n ih =>
    rw [genSteps_succ, ih, gen_c, BitVec.add_assoc]
    congr 1
    apply BitVec.eq_of_toNat_eq
    have h1 : (1 : StepCounter).toNat = 1 := rfl
    simp only [BitVec.toNat_add, BitVec.toNat_ofNat, h1]
    omega

@[simp] theorem genWords_length (n : Nat) (g : GeneratorState) : (genWords n g).length = n := by
  induction n generalizing g with
  | zero => rfl
  | succ n ih => simp [genWords, ih]

theorem genWords_add (m n : Nat) (g : GeneratorState) :
    genWords (m + n) g = genWords m g ++ genWords n (genSteps m g) := by
  induction m generalizing g with
  | zero => simp [genWords, genSteps]
  | succ m ih => rw [Nat.succ_add]; simp [genWords, genSteps, ih]

end Sys2Proof.Machine
end

