-- ==== Sys2Proof/Laws/ByteLayer.lean ====
section
/-! SUPPORT. Laws of the byte layer (Machine/ByteLayer.lean): one lemma per step of the process algorithm that says everything it
does. -/

namespace Sys2Proof.Machine

@[simp] theorem wordBytes_nil : wordBytes [] = [] := rfl

@[simp] theorem wordBytes_cons (w : Word) (ws : List Word) : wordBytes (w :: ws) = bytesLeList w ++ wordBytes ws := rfl

@[simp] theorem wordBytes_append (ws vs : List Word) : wordBytes (ws ++ vs) = wordBytes ws ++ wordBytes vs := by
  simp [wordBytes]

@[simp] theorem wordBytes_length (ws : List Word) : (wordBytes ws).length = 4 * ws.length := by
  induction ws with
  | nil => rfl
  | cons w ws ih => simp [ih]; omega

@[simp] theorem CipherState.pending_length (k : CipherState) : k.pending.length = k.idx.val := by
  have := k.idx.isLt
  simp [CipherState.pending]
  omega

theorem CipherState.pending_of_idx_zero {k : CipherState} (hk : k.idx = 0) : k.pending = [] := by
  simp [CipherState.pending, hk]

/-- While bytes are pending, the next one is the head of them (R24). -/
theorem CipherState.pending_cons {k : CipherState} (hk : k.idx ≠ 0) :
    k.pending = k.nextPending :: k.dropPending.pending := by
  obtain ⟨idx, buf, g⟩ := k
  obtain ⟨⟨l⟩, hl⟩ := buf
  match l, hl with
  | [a, b, c, d], _ =>
    fin_cases idx <;> first | exact absurd rfl hk | rfl

@[simp] theorem CipherState.dropPending_gen (k : CipherState) : k.dropPending.gen = k.gen := rfl

@[simp] theorem CipherState.dropPending_buf (k : CipherState) : k.dropPending.buf = k.buf := rfl

theorem CipherState.dropPending_idx {k : CipherState} (hk : k.idx ≠ 0) : k.dropPending.idx.val = k.idx.val - 1 := by
  have h : ∀ i : Fin 4, i ≠ 0 → (i - 1).val = i.val - 1 := by decide
  exact h k.idx hk

/-- Step (a) (R141): the output is the input XOR the pending bytes, the input left over is what they do not cover, and
only `idx` changes. -/
theorem consumePending_eq (k : CipherState) (bs : List Byte) :
    (consumePending k bs).1 = xorBytes (bs.take k.idx.val) k.pending ∧
    (consumePending k bs).2.1 = bs.drop k.idx.val ∧
    (consumePending k bs).2.2.gen = k.gen ∧
    (consumePending k bs).2.2.buf = k.buf ∧
    (consumePending k bs).2.2.idx.val = k.idx.val - bs.length := by
  induction bs generalizing k with
  | nil => simp [consumePending]
  | cons b bs ih =>
    by_cases hk : k.idx = 0
    · simp [consumePending, hk]
    · obtain ⟨h1, h2, h3, h4, h5⟩ := ih k.dropPending
      have hd := CipherState.dropPending_idx hk
      have hpos : k.idx.val = k.dropPending.idx.val + 1 := by
        have : k.idx.val ≠ 0 := fun h => hk (Fin.ext h)
        omega
      simp only [consumePending, hk, if_false]
      refine ⟨?_, ?_, h3, h4, ?_⟩
      · rw [h1, hpos, CipherState.pending_cons hk]; simp
      · rw [h2, hpos]; simp
      · rw [h5, hd]; simp; omega

/-- Step (b) (R141): one word for each four bytes of input, in order; 0 to 3 bytes are left. -/
theorem wholeWords_eq (g : GeneratorState) (bs : List Byte) :
    wholeWords g bs = (xorBytes (bs.take (4 * (bs.length / 4))) (wordBytes (genWords (bs.length / 4) g)),
      bs.drop (4 * (bs.length / 4)), genSteps (bs.length / 4) g) := by
  induction g, bs using wholeWords.induct with
  | case1 g b0 b1 b2 b3 bs ih =>
    have hl : (b0 :: b1 :: b2 :: b3 :: bs).length / 4 = bs.length / 4 + 1 := by simp; omega
    simp only [wholeWords, ih, hl]
    simp only [show 4 * (bs.length / 4 + 1) = 4 * (bs.length / 4) + 1 + 1 + 1 + 1 by ring, List.take_succ_cons,
      List.drop_succ_cons, genWords, genSteps_succ, wordBytes_cons, bytesLeList_eq]
    simp
  | case2 g bs hbs =>
    have hl : bs.length / 4 = 0 := by
      match bs, hbs with
      | [], _ => rfl
      | [_], _ => simp
      | [_, _], _ => simp
      | [_, _, _], _ => simp
      | a :: b :: c :: d :: r, h => exact absurd rfl (h a b c d r)
    rw [wholeWords, hl]
    · simp [genSteps, genWords]
    · exact hbs

/-- Step (c) on 1 to 3 bytes (R141). -/
theorem trailingBytes_eq (k : CipherState) {bs : List Byte} (hbs : bs ≠ []) :
    trailingBytes k bs = (xorBytes bs (bytesLeList (gen k.gen).1),
      { gen := (gen k.gen).2, buf := bytesLe (gen k.gen).1, idx := Fin.ofNat 4 (4 - bs.length) }) := by
  simp [trailingBytes, hbs]

@[simp] theorem trailingBytes_nil (k : CipherState) : trailingBytes k [] = ([], k) := by simp [trailingBytes]

end Sys2Proof.Machine
end

