-- ==== Sys2Proof/Laws/Decode.lean ====
section
/-! SUPPORT. Laws of the decoder (Decode.lean): what each answer of it says about the stream. -/

namespace Sys2Proof

open Sys2Proof.Machine

/-- The three legal headers (R67, R68). -/
theorem opcodeOf_eq (hdr : Word) :
    opcodeOf hdr = if hdr = 0x00000001 then some .init else if hdr = 0x00000002 then some .process
      else if hdr = 0x00000003 then some .genword else none := by
  have key : ∀ v : Byte, (reservedField hdr = 0 ∧ opcodeField hdr = v) ↔ hdr = v.setWidth 32 := by
    intro v
    have hw := hdr.isLt
    have hv := v.isLt
    have hz : (0 : BitVec 24).toNat = 0 := rfl
    simp only [reservedField, opcodeField, ← BitVec.toNat_inj, BitVec.extractLsb'_toNat, BitVec.toNat_setWidth,
      Nat.shiftRight_eq_div_pow, hz, Nat.pow_zero, Nat.div_one]
    omega
  have k1 := key 0x01
  have k2 := key 0x02
  have k3 := key 0x03
  simp only [opcodeOf]
  by_cases hr : reservedField hdr = 0
  · simp only [hr, true_and] at k1 k2 k3
    simp only [hr, ne_eq, not_true_eq_false, if_false, k1, k2, k3]
    rfl
  · simp only [hr, false_and, false_iff] at k1 k2 k3
    have h1 : hdr ≠ 0x00000001 := k1
    have h2 : hdr ≠ 0x00000002 := k2
    have h3 : hdr ≠ 0x00000003 := k3
    rw [if_pos hr, if_neg h1, if_neg h2, if_neg h3]

@[simp] theorem opcodeOf_headerOf_init (key iv : List Byte) : opcodeOf (headerOf (.init key iv)) = some .init :=
  show opcodeOf 0x00000001 = some .init by decide

@[simp] theorem opcodeOf_headerOf_process (input : List Byte) (outLen : Word) :
    opcodeOf (headerOf (.process input outLen)) = some .process :=
  show opcodeOf 0x00000002 = some .process by decide

@[simp] theorem opcodeOf_headerOf_genword : opcodeOf (headerOf .genword) = some .genword := by decide

/-- A stream that begins with the four bytes of a header word is decoded by that word. -/
theorem decode_header (hdr : Word) (s : List Byte) :
    decode (bytesLeList hdr ++ s) =
      match opcodeOf hdr with
      | none => .illegal hdr s
      | some .genword => .command .genword s
      | some .init => decodeInit s
      | some .process => decodeProcess s := by
  simp only [bytesLeList_eq, List.cons_append, List.nil_append, decode, le32_byteOf] <;> rfl

theorem operandFields_bytes (a b : Word) (data : List Byte) :
    operandFields (bytesLeList a ++ (bytesLeList b ++ data)) = some (a, b, data) := by
  simp only [bytesLeList_eq, List.cons_append, List.nil_append, operandFields, le32_byteOf]

/-- The operand fields are the eight bytes they were read from. -/
theorem operandFields_some {s data : List Byte} {a b : Word} (h : operandFields s = some (a, b, data)) :
    s = bytesLeList a ++ (bytesLeList b ++ data) := by
  match s, h with
  | a0 :: a1 :: a2 :: a3 :: b0 :: b1 :: b2 :: b3 :: rest, h =>
    simp only [operandFields, Option.some.injEq, Prod.mk.injEq] at h
    obtain ⟨rfl, rfl, rfl⟩ := h
    simp [bytesLeList_le32]

/-- A stream of at least four bytes is the bytes of a header word and what follows. -/
theorem header_bytes (m0 m1 m2 m3 : Byte) (s : List Byte) :
    m0 :: m1 :: m2 :: m3 :: s = bytesLeList (le32 m0 m1 m2 m3) ++ s := by simp [bytesLeList_le32]

end Sys2Proof
end

