-- ==== Sys2Proof/Laws/Expansion.lean ====
section
/-! SUPPORT. Laws of the expansion buffer (Machine/Expansion.lean). -/

namespace Sys2Proof.Machine

theorem seedBuffer_size (key iv : List Byte) : (seedBuffer key iv).size = 16 := by simp [seedBuffer]

@[simp] theorem expandStep_size (W : Array Word) : (expandStep W).size = W.size + 1 := by simp [expandStep]

theorem expandStep_getD_lt (W : Array Word) {i : Nat} (hi : i < W.size) : (expandStep W).getD i 0 = W.getD i 0 := by
  simp [expandStep, Array.getD_eq_getD_getElem?, Array.getElem?_push, Nat.ne_of_lt hi]

theorem expandSteps_succ (n : Nat) (W : Array Word) : expandSteps (n + 1) W = expandSteps n (expandStep W) := rfl

@[simp] theorem expandSteps_size (n : Nat) (W : Array Word) : (expandSteps n W).size = W.size + n := by
  induction n generalizing W with
  | zero => rfl
  | succ n ih => rw [expandSteps_succ, ih, expandStep_size]; omega

/-- A word of W, once written, stays. -/
theorem expandSteps_getD_lt (n : Nat) (W : Array Word) {i : Nat} (hi : i < W.size) :
    (expandSteps n W).getD i 0 = W.getD i 0 := by
  induction n generalizing W with
  | zero => rfl
  | succ n ih => rw [expandSteps_succ, ih _ (by simp; omega), expandStep_getD_lt W hi]

theorem expandBuffer_size (key iv : List Byte) : (expandBuffer key iv).size = 2560 := by
  simp [expandBuffer, seedBuffer_size, Config.expansionWords, Config.seedWords]

theorem loadTable_read (W : Array Word) (offset : Nat) (j : TableIndex) :
    (loadTable W offset).read j = W.getD (offset + j.toNat) 0 := by
  simp [loadTable, Table.read]

/-- The number of warm-up steps (R7, R127). -/
theorem warmupSteps_eq : Config.warmupSteps = 4096 := by unfold Config.warmupSteps; rfl

/-- Cite this and `genSteps_zero` rather than rfl: an rfl between a fresh generator and another one makes the kernel run the
4096 steps. -/
theorem freshGenerator_eq (key iv : List Byte) :
    freshGenerator key iv = genSteps Config.warmupSteps (loadedGenerator key iv) := rfl

@[simp] theorem freshCipher_gen (key iv : List Byte) : (freshCipher key iv).gen = freshGenerator key iv := rfl

@[simp] theorem freshCipher_buf (key iv : List Byte) : (freshCipher key iv).buf = Vector.replicate 4 0 := rfl

@[simp] theorem freshCipher_idx (key iv : List Byte) : (freshCipher key iv).idx = 0 := rfl

end Sys2Proof.Machine
end

