-- ==== Sys2Proof/Laws/PerInstr.lean ====
section
/-! SUPPORT. Laws stated of every instruction as syntax, one lemma per constructor (LAWS.json, "per_instruction"). -/

namespace Sys2Proof.Laws

open Sys2Proof.Machine

/-- The encoding of a command has the length R62 gives its message. -/
def EncodedLength.Statement (i : Instr) : Prop := (encode i).length = messageBytes i

theorem EncodedLength.init (key iv : List Byte) : EncodedLength.Statement (.init key iv) := by
  simp [EncodedLength.Statement, encode, messageBytes]; omega

theorem EncodedLength.process (input : List Byte) (outLen : Word) : EncodedLength.Statement (.process input outLen) := by
  simp [EncodedLength.Statement, encode, messageBytes]; omega

theorem EncodedLength.genword : EncodedLength.Statement .genword := rfl

/-- The first four bytes of the encoding are the command's header word, little-endian, and that word names the command's
own opcode and no other (R61, R67). -/
def EncodedHeader.Statement (i : Instr) : Prop :=
  (encode i).take 4 = bytesLeList (headerOf i) ∧ reservedField (headerOf i) = 0 ∧
    opcodeOf (headerOf i) = some (match i with
      | .init _ _ => .init
      | .process _ _ => .process
      | .genword => .genword)

theorem EncodedHeader.init (key iv : List Byte) : EncodedHeader.Statement (.init key iv) :=
  ⟨by simp [encode, bytesLeList_eq], (by decide : reservedField 0x00000001 = 0), opcodeOf_headerOf_init key iv⟩

theorem EncodedHeader.process (input : List Byte) (outLen : Word) : EncodedHeader.Statement (.process input outLen) :=
  ⟨by simp [encode, bytesLeList_eq], (by decide : reservedField 0x00000002 = 0), opcodeOf_headerOf_process input outLen⟩

theorem EncodedHeader.genword : EncodedHeader.Statement .genword :=
  ⟨by simp [encode, bytesLeList_eq], by decide, by decide⟩

end Sys2Proof.Laws
end

