-- ==== Sys2Proof/Laws/Step.lean ====
section
/-! SUPPORT. What each meaning and each step can do, said once: the equations of the meanings by case, and the inversion of a
step that answers a next state. -/

namespace Sys2Proof.Machine

theorem execInit_halted {s : State} (hs : s.halted = true) (key iv : List Byte) : execInit key iv s = .next s := by
  simp [execInit, hs]

theorem execInit_badKey {s : State} (hs : s.halted = false) {key : List Byte} (iv : List Byte) (hk : key.length ≠ 32) :
    execInit key iv s = .next (s.raiseError .invalidKeyLength) := by
  simp [execInit, hs, Config.keyBytes, hk]

theorem execInit_badIV {s : State} (hs : s.halted = false) {key iv : List Byte} (hk : key.length = 32)
    (hv : iv.length ≠ 32) : execInit key iv s = .next (s.raiseError .invalidIVLength) := by
  simp [execInit, hs, Config.keyBytes, Config.ivBytes, hk, hv]

theorem execInit_ok {s : State} (hs : s.halted = false) {key iv : List Byte} (hk : key.length = 32)
    (hv : iv.length = 32) : execInit key iv s =
      .next (((s.setCipher (freshCipher key iv)).setReady).respond { status := .ok, data := [] }) := by
  simp [execInit, hs, Config.keyBytes, Config.ivBytes, hk, hv]

theorem execProcess_halted {s : State} (hs : s.halted = true) (input : List Byte) (outLen : Word) :
    execProcess input outLen s = .next s := by simp [execProcess, hs]

theorem execProcess_notReady {s : State} (hs : s.halted = false) (hr : s.ready = false) (input : List Byte)
    (outLen : Word) : execProcess input outLen s = .next (s.raiseError .notInitialized) := by
  simp [execProcess, hs, hr]

theorem execProcess_mismatch {s : State} (hs : s.halted = false) (hr : s.ready = true) {input : List Byte}
    {outLen : Word} (hl : outLen.toNat ≠ input.length) :
    execProcess input outLen s = .next (s.raiseError .lengthMismatch) := by
  simp [execProcess, hs, hr, hl]

theorem execProcess_ok {s : State} (hs : s.halted = false) (hr : s.ready = true) {input : List Byte} {outLen : Word}
    (hl : outLen.toNat = input.length) : execProcess input outLen s =
      .next ((s.setCipher (process s.cipher input).2).respond
        { status := .ok, data := (process s.cipher input).1 }) := by
  simp [execProcess, hs, hr, hl]

theorem execGenword_halted {s : State} (hs : s.halted = true) : execGenword s = .next s := by simp [execGenword, hs]

theorem execGenword_notReady {s : State} (hs : s.halted = false) (hr : s.ready = false) :
    execGenword s = .next (s.raiseError .notInitialized) := by simp [execGenword, hs, hr]

theorem execGenword_ok {s : State} (hs : s.halted = false) (hr : s.ready = true) : execGenword s =
    .next ((s.setCipher { s.cipher with gen := (gen s.cipher.gen).2 }).respond
      { status := .ok, data := bytesLeList (gen s.cipher.gen).1 }) := by
  simp [execGenword, hs, hr]

theorem execIllegal_running {s : State} (hs : s.halted = false) (hdr : Word) :
    execIllegal hdr s = .next (s.raiseError .illegalCommand) := by simp [execIllegal, hs]

theorem step_halted {s : State} (hs : s.halted = true) : step s = haltedStep s := by simp [step, hs]

theorem step_command {s : State} {i : Instr} {rest : List Byte} (hs : s.halted = false)
    (hd : decode s.rx = .command i rest) : step s = exec i (s.consume rest) := by simp [step, hs, hd]

theorem step_illegal {s : State} {hdr : Word} {rest : List Byte} (hs : s.halted = false)
    (hd : decode s.rx = .illegal hdr rest) : step s = execIllegal hdr (s.consume rest) := by simp [step, hs, hd]

theorem step_wait {s : State} (hs : s.halted = false) (hd : decode s.rx = .wait) : step s = awaitStep s := by
  simp [step, hs, hd]

theorem awaitStep_cases {s : State} {o : Host.Outcome State Fault Refusal} (h : awaitStep s = o) :
    (∃ bytes later, s.resets = bytes :: later ∧ o = .next (s.takeReset bytes later)) ∨
    (s.resets = [] ∧ s.rx ≠ [] ∧ o = .fault .truncatedMessage) ∨
    (s.resets = [] ∧ s.rx = [] ∧ o = .fault .idle) := by
  subst h
  cases hr : s.resets with
  | cons bytes later => exact .inl ⟨bytes, later, rfl, by simp [awaitStep, hr]⟩
  | nil =>
    cases hx : s.rx with
    | cons b bs => exact .inr (.inl ⟨rfl, by simp, by simp [awaitStep, hr, hx]⟩)
    | nil => exact .inr (.inr ⟨rfl, rfl, by simp [awaitStep, hr, hx]⟩)

theorem haltedStep_cases {s : State} {o : Host.Outcome State Fault Refusal} (h : haltedStep s = o) :
    (s.rx ≠ [] ∧ o = .next (s.consume [])) ∨
    (s.rx = [] ∧ ∃ bytes later, s.resets = bytes :: later ∧ o = .next (s.takeReset bytes later)) ∨
    (s.rx = [] ∧ s.resets = [] ∧ o = .fault .halted) := by
  subst h
  cases hx : s.rx with
  | cons b bs => exact .inl ⟨by simp, by simp [haltedStep, hx]⟩
  | nil =>
    cases hr : s.resets with
    | cons bytes later => exact .inr (.inl ⟨rfl, bytes, later, rfl, by simp [haltedStep, hx, hr]⟩)
    | nil => exact .inr (.inr ⟨rfl, rfl, by simp [haltedStep, hx, hr]⟩)

/-- Everything a command can do: it always answers a next state. On a halted core nothing happens; otherwise it is one of the
errors or the command's success. -/
theorem exec_cases (i : Instr) (s : State) :
    (s.halted = true ∧ exec i s = .next s) ∨
    (s.halted = false ∧ ∃ e : Status, e ≠ .ok ∧ e ≠ .illegalCommand ∧ exec i s = .next (s.raiseError e)) ∨
    (s.halted = false ∧ ∃ key iv, i = .init key iv ∧ key.length = 32 ∧ iv.length = 32 ∧ exec i s =
      .next (((s.setCipher (freshCipher key iv)).setReady).respond { status := .ok, data := [] })) ∨
    (s.halted = false ∧ s.ready = true ∧ ∃ input outLen, i = .process input outLen ∧ outLen.toNat = input.length ∧
      exec i s = .next ((s.setCipher (process s.cipher input).2).respond
        { status := .ok, data := (process s.cipher input).1 })) ∨
    (s.halted = false ∧ s.ready = true ∧ i = .genword ∧ exec i s =
      .next ((s.setCipher { s.cipher with gen := (gen s.cipher.gen).2 }).respond
        { status := .ok, data := bytesLeList (gen s.cipher.gen).1 })) := by
  cases hs : s.halted with
  | true => cases i <;> simp [exec, execInit_halted, execProcess_halted, execGenword_halted, hs]
  | false =>
    right
    cases i with
    | init key iv =>
      by_cases hk : key.length = 32
      · by_cases hv : iv.length = 32
        · exact .inr (.inl ⟨rfl, key, iv, rfl, hk, hv, execInit_ok hs hk hv⟩)
        · exact .inl ⟨rfl, _, by decide, by decide, execInit_badIV hs hk hv⟩
      · exact .inl ⟨rfl, _, by decide, by decide, execInit_badKey hs iv hk⟩
    | process input outLen =>
      cases hr : s.ready with
      | false => exact .inl ⟨rfl, _, by decide, by decide, execProcess_notReady hs hr input outLen⟩
      | true =>
        by_cases hl : outLen.toNat = input.length
        · exact .inr (.inr (.inl ⟨rfl, rfl, input, outLen, rfl, hl, execProcess_ok hs hr hl⟩))
        · exact .inl ⟨rfl, _, by decide, by decide, execProcess_mismatch hs hr hl⟩
    | genword =>
      cases hr : s.ready with
      | false => exact .inl ⟨rfl, _, by decide, by decide, execGenword_notReady hs hr⟩
      | true => exact .inr (.inr (.inr ⟨rfl, rfl, rfl, execGenword_ok hs hr⟩))

/-- Everything a step that answers a next state can have been. -/
theorem step_cases {s t : State} (h : step s = .next t) :
    (s.halted = true ∧ s.rx ≠ [] ∧ t = s.consume []) ∨
    ((s.halted = true ∧ s.rx = [] ∨ s.halted = false ∧ decode s.rx = .wait) ∧
      ∃ bytes later, s.resets = bytes :: later ∧ t = s.takeReset bytes later) ∨
    (s.halted = false ∧ ∃ hdr rest, decode s.rx = .illegal hdr rest ∧ t = (s.consume rest).raiseError .illegalCommand) ∨
    (s.halted = false ∧ ∃ i rest, decode s.rx = .command i rest ∧ exec i (s.consume rest) = .next t) := by
  cases hs : s.halted with
  | true =>
    rw [step_halted hs] at h
    obtain ⟨hx, ho⟩ | ⟨hx, bytes, later, hr, ho⟩ | ⟨_, _, ho⟩ := haltedStep_cases h
    · cases ho; exact .inl ⟨rfl, hx, rfl⟩
    · cases ho; exact .inr (.inl ⟨.inl ⟨rfl, hx⟩, bytes, later, hr, rfl⟩)
    · cases ho
  | false =>
    cases hd : decode s.rx with
    | wait =>
      rw [step_wait hs hd] at h
      obtain ⟨bytes, later, hr, ho⟩ | ⟨_, _, ho⟩ | ⟨_, _, ho⟩ := awaitStep_cases h
      · cases ho; exact .inr (.inl ⟨.inr ⟨rfl, rfl⟩, bytes, later, hr, rfl⟩)
      · cases ho
      · cases ho
    | illegal hdr rest =>
      rw [step_illegal hs hd, execIllegal_running (by simpa using hs)] at h
      cases h
      exact .inr (.inr (.inl ⟨rfl, hdr, rest, rfl, rfl⟩))
    | command i rest => exact .inr (.inr (.inr ⟨rfl, i, rest, rfl, by rw [← step_command hs hd, h]⟩))

end Sys2Proof.Machine
end

