-- ==== Sys2Proof/Tests/Slice0.lean ====
section
/-! SUPPORT. Tests: the well-formedness smoke tests, messages written out from R62, vectors of spec/95_test_vectors.md, and for every
statement with hypotheses a named witness that meets them. -/

namespace Sys2Proof.Tests

open Sys2Proof Sys2Proof.Machine

/-! ## Small states -/

/-- A core that holds an instance (of all-zero tables). -/
def readyState : State := { State.reset with ready := true }

/-- A core with one byte pending. -/
def pendingState : State :=
  { readyState with cipher := { readyState.cipher with idx := 1, buf := #v[0x95, 0x8f, 0x9a, 0xd1] } }

/-- A halted core. -/
def haltedState : State := { State.reset with halted := true }

/-- 32 zero bytes. -/
def zeros32 : List Byte := List.replicate 32 0

/-- A table whose entry j is `base + j`, the synthetic tables of V-G2 to V-G7. -/
def synthetic (base : Nat) : Table := ⟨((List.range 1024).map fun j => zextWord (base + j)).toArray, by simp⟩

/-- The synthetic generator of V-G3 to V-G7. -/
def syntheticGenerator (c : StepCounter) : GeneratorState := { P := synthetic 0, Q := synthetic 0x400, c := c }

/-! ## Well-formedness: each check refuses an ill-formed term -/

theorem test_wf_key_too_long (n : Nat) (hn : 2 ^ 32 ≤ n) : (Instr.init (List.replicate n 0) []).wellFormed = false := by
  have h : ¬ n < 2 ^ 32 := by omega
  simp only [Instr.wellFormed, fitsLengthField, List.length_replicate, decide_eq_false h, Bool.false_and]

theorem test_wf_iv_too_long (n : Nat) (hn : 2 ^ 32 ≤ n) : (Instr.init [] (List.replicate n 0)).wellFormed = false := by
  have h : ¬ n < 2 ^ 32 := by omega
  simp only [Instr.wellFormed, fitsLengthField, List.length_replicate, decide_eq_false h, Bool.and_false]

theorem test_wf_input_too_long (n : Nat) (hn : 2 ^ 32 ≤ n) :
    (Instr.process (List.replicate n 0) 0).wellFormed = false := by
  have h : ¬ n < 2 ^ 32 := by omega
  simp only [Instr.wellFormed, fitsLengthField, List.length_replicate, decide_eq_false h]

theorem test_wf_longest_input : fitsLengthField 4294967295 = true ∧ fitsLengthField 4294967296 = false := by decide

theorem test_wf_asm_number : (AsmLine.skip 4294967296).wellFormed = false ∧ (AsmLine.keystream 4294967296).wellFormed = false ∧
    (AsmLine.process [.hex []] (some 4294967296)).wellFormed = false ∧ (Atom.zeros 4294967296).wellFormed = false := by decide

theorem test_wf_asm_text : (Atom.ascii ['\n']).wellFormed = false ∧ (Atom.ascii ['"']).wellFormed = false ∧
    (AsmLine.encrypt []).wellFormed = false ∧ (AsmLine.decrypt []).wellFormed = false ∧
    (AsmLine.init [] [.zeros 32]).wellFormed = false ∧ (AsmLine.init [.zeros 32] []).wellFormed = false := by decide

theorem test_wf_asm_accepts : (AsmLine.init [.hex [0x55], .zeros 31] [.zeros 32]).wellFormed = true ∧
    (AsmLine.encrypt [.ascii ['H', 'C', '-', '2', '5', '6']]).wellFormed = true := by decide

/-! ## Decoding: messages written out from R62 and R67 -/

theorem test_decode_init : decode [0x01, 0x00, 0x00, 0x00, 0x02, 0x00, 0x00, 0x00, 0x01, 0x00, 0x00, 0x00, 0xA1, 0xA2, 0xB1] =
    .command (.init [0xA1, 0xA2] [0xB1]) [] := by decide

/-- The SKIP header of PROG-6: `in_len = out_len = 8192`. -/
theorem test_decode_process_lengths : operandFields [0x00, 0x20, 0x00, 0x00, 0x00, 0x20, 0x00, 0x00] = some (8192, 8192, []) := by decide

theorem test_decode_process : decode [0x02, 0x00, 0x00, 0x00, 0x01, 0x00, 0x00, 0x00, 0x00, 0x01, 0x00, 0x00, 0x7F, 0x03] =
    .command (.process [0x7F] 256) [0x03] := by decide

theorem test_decode_genword : decode [0x03, 0x00, 0x00, 0x00] = .command .genword [] := by decide

/-- V-C4, R164: reserved bits and reserved opcodes. -/
theorem test_decode_illegal : decode [0x00, 0x00, 0x00, 0x00] = .illegal 0 [] ∧ decode [0x04, 0x00, 0x00, 0x00] = .illegal 4 [] ∧
    decode [0xFF, 0x00, 0x00, 0x00] = .illegal 0xFF [] ∧ decode [0x01, 0x00, 0x00, 0x80] = .illegal 0x80000001 [] ∧
    decode [0x02, 0x01, 0x00, 0x00] = .illegal 0x00000102 [] := by decide

theorem test_table_words : decodeTableWord 32 0x00000001 = some (.init [] []) ∧
    decodeTableWord 32 0x00000002 = some (.process [] 0) ∧ decodeTableWord 32 0x00000003 = some .genword ∧
    decodeTableWord 32 0x00000004 = none := by decide

/-- PROG-5: the stream of ENCRYPT with its plaintext. -/
theorem test_assemble_encrypt : assembleProgram [.encrypt [.ascii ['H', 'C']]] =
    [0x02, 0x00, 0x00, 0x00, 0x02, 0x00, 0x00, 0x00, 0x02, 0x00, 0x00, 0x00, 0x48, 0x43] := by decide

/-- PROG-2 and PROG-4: the concrete syntax, with a comment and a blank line. -/
theorem test_parse_program : parseProgram (['I','N','I','T',' ','k','e','y','=','x','"','5','5','"',' ','+','+',' ','z','e','r','o','s',
      '(','3','1',')',',',' ','i','v','=','z','e','r','o','s','(','3','2',')',' ',';','O','K','\n','\n'] ++
    ['P','R','O','C','E','S','S',' ','z','e','r','o','s','(','3',')',',',' ','o','u','t','=','4','\n']) =
    some [.init [.hex [0x55], .zeros 31] [.zeros 32], .process [.zeros 3] (some 4)] := by decide +kernel

/-- The grammar's limits: a number over 4294967295, an odd hex digit, a missing newline. -/
theorem test_parse_refuses : parseProgram ['S','K','I','P',' ','4','2','9','4','9','6','7','2','9','6','\n'] = none ∧
    parseProgram ['P','R','O','C','E','S','S',' ','x','"','5','"','\n'] = none ∧
    parseProgram ['G','E','N','W','O','R','D'] = none := by decide +kernel

/-- Where blanks must and need not stand: the model's choice (assumption log 7), not R71's. -/
theorem test_parse_blanks : parseProgram ['S','K','I','P','4','\n'] = some [.skip 4] ∧
    parseProgram ['P','R','O','C','E','S','S',' ','z','e','r','o','s',' ','(','3',')','\n'] = some [.process [.zeros 3] none] ∧
    parseProgram ['P','R','O','C','E','S','S','"','a','"','\n'] = some [.process [.ascii ['a']] none] ∧
    parseProgram ['P','R','O','C','E','S','S','z','e','r','o','s','(','3',')','\n'] = none ∧
    parseProgram ['P','R','O','C','E','S','S','x','"','0','0','"','\n'] = none := by decide +kernel

/-! ## Vectors of 95_test_vectors.md -/

/-- V-M1. -/
theorem test_f1_vectors : f1 0x12345678 = 0xe7fce6ee ∧ f1 0xdeadbeef = 0xabd31b0b := by decide

/-- V-M1. -/
theorem test_f2_vectors : f2 0x12345678 = 0xa1f78649 ∧ f2 0xdeadbeef = 0x689dbfec := by decide

/-- V-E3: `W[0]`, `W[16]`, `W[18]` and `W[20]` for the key of vector C. -/
theorem test_expansion_vector :
    (let W := expandSteps 5 (seedBuffer (0x55 :: List.replicate 31 0) zeros32)
     [W.getD 0 0, W.getD 16 0, W.getD 18 0, W.getD 20 0]) = [0x00000055, 0x00000065, 0x003e2012, 0xd40b4fa4] := by decide +kernel

/-- V-G1. -/
theorem test_index_offsets : [i3 0, i10 0, i12 0, i1023 0] = [1021, 1014, 1012, 1] ∧
    [i3 1023, i10 1023, i12 1023, i1023 1023] = [1020, 1013, 1011, 0] ∧ entryIndex 2047 = 1023 ∧
    inPPhase 1023 = true ∧ inPPhase 1024 = false := by decide

/-- V-G2. -/
theorem test_h_vector : h (synthetic 0) 0x12345678 = 0x00000714 := by decide +kernel

/-- V-G3: a P-phase step at i = 0. -/
theorem test_gen_pphase : (gen (syntheticGenerator 0)).1 = 0xff401b05 ∧
    (gen (syntheticGenerator 0)).2.P.read 0 = 0xff400df2 ∧ (gen (syntheticGenerator 0)).2.c = 1 := by decide +kernel

/-- V-G7: a Q-phase step at i = 1023, where the counter wraps. -/
theorem test_gen_qphase_wrap : (gen (syntheticGenerator 2047)).1 = 0xff08150b ∧
    (gen (syntheticGenerator 2047)).2.Q.read 1023 = 0xff0813f1 ∧ (gen (syntheticGenerator 2047)).2.c = 0 := by decide +kernel

/-- V-B1: with `buf = 95 8f 9a d1` and `idx = 1` the next byte is `d1`. -/
theorem test_process_pending_byte : (process pendingState.cipher [0x00]).1 = [0xd1] ∧
    (process pendingState.cipher [0x00]).2.idx = 0 := by decide +kernel

/-- R141: trailing bytes leave the rest of their word in buf; from all-zero tables the word is 0. -/
theorem test_process_trailing : (process readyState.cipher [0xAB, 0xCD, 0xEF, 0x01, 0x23]).1 = [0xAB, 0xCD, 0xEF, 0x01, 0x23] ∧
    (process readyState.cipher [0xAB, 0xCD, 0xEF, 0x01, 0x23]).2.idx = 3 ∧
    (process readyState.cipher [0xAB, 0xCD, 0xEF, 0x01, 0x23]).2.gen.c = 2 := by decide +kernel

/-- V-C1: after reset PROCESS and GENWORD end with NotInitialized. -/
theorem test_not_initialized : nextSatisfies (step (State.reset.withFetchWord 32 2)) (fun t => t.tx == [0x04, 0x00, 0x00, 0x00]) = true ∧
    nextSatisfies (step (State.reset.withFetchWord 32 3)) (fun t => t.tx == [0x04, 0x00, 0x00, 0x00]) = true := by decide

/-- V-C2: the key check comes first. -/
theorem test_init_errors : nextSatisfies (exec (.init [] []) State.reset) (fun t => t.tx == [0x01, 0x00, 0x00, 0x00]) = true ∧
    nextSatisfies (exec (.init zeros32 zeros32.tail) State.reset) (fun t => t.tx == [0x02, 0x00, 0x00, 0x00]) = true := by decide

/-- V-C3. -/
theorem test_length_mismatch : nextSatisfies (exec (.process [0, 0, 0] 4) readyState)
    (fun t => t.tx == [0x03, 0x00, 0x00, 0x00] && t.cipher.gen.c == 0 && t.cipher.idx == 0) = true := by decide

/-- V-C5. -/
theorem test_empty_process : nextSatisfies (exec (.process [] 0) readyState) (fun t => t.tx == [0x00, 0x00, 0x00, 0x00]) = true := by
  decide

/-- R163: GENWORD leaves pending bytes pending. -/
theorem test_genword_keeps_pending : nextSatisfies (exec .genword pendingState)
    (fun t => t.cipher.idx == 1 && t.cipher.buf == #v[0x95, 0x8f, 0x9a, 0xd1] && t.cipher.gen.c == 1) = true := by decide +kernel

/-- PROG-7: an illegal header halts the core, which then swallows a GENWORD; reset leaves the state. -/
theorem test_illegal_then_halted :
    nextSatisfies (step { readyState with rx := [0x07, 0x00, 0x00, 0x00] })
      (fun t => t.tx == [0x05, 0x00, 0x00, 0x00] && t.halted) = true ∧
    nextSatisfies (step { haltedState with rx := [0x03, 0x00, 0x00, 0x00] }) (fun t => t.tx == [] && t.rx == [] && t.halted) = true ∧
    nextSatisfies (step { haltedState with resets := [[0x03]] })
      (fun t => t.tx == [] && t.rx == [0x03] && !t.halted && !t.ready) = true := by decide

/-! ## Witnesses: for every statement with hypotheses, a state and operands that meet them all -/

theorem witness_MessageRoundTrip : (Instr.init [0x55] []).wellFormed = true ∧ (Instr.process [0x11] 5).wellFormed = true ∧
    Instr.genword.wellFormed = true := by decide

theorem witness_DecodedMessageIsItsEncoding : decode [0x03, 0x00, 0x00, 0x00, 0x01] = .command .genword [0x01] := by decide

theorem witness_DecodingIgnoresLaterBytes : decode [0x03, 0x00, 0x00, 0x00] = .command .genword [] ∧
    decode [0x07, 0x00, 0x00, 0x00] = .illegal 7 [] := by decide

theorem witness_IllegalHeaders :
    (∃ s : State, s.halted = false ∧ s.rx = [0x00, 0x01, 0x00, 0x00] ∧ decode s.rx = .illegal 0x100 []) ∧
    decode [0x00, 0x00, 0x00, 0x00] = .illegal 0 [] ∧ decode [0x04, 0x00, 0x00, 0x00] = .illegal 4 [] :=
  ⟨⟨{ State.reset with rx := [0x00, 0x01, 0x00, 0x00] }, by decide⟩, by decide⟩

theorem witness_IncompleteMessageWaits :
    (∃ s : State, s.halted = false ∧ decode s.rx = .wait ∧ s.resets = [] ∧ s.rx = []) ∧
    (∃ s : State, s.halted = false ∧ decode s.rx = .wait ∧ s.resets = [] ∧ s.rx = [0x02, 0x00, 0x00]) ∧
    (∃ s : State, s.halted = false ∧ decode s.rx = .wait ∧ s.resets = [[]]) :=
  ⟨⟨State.reset, by decide⟩, ⟨{ State.reset with rx := [0x02, 0x00, 0x00] }, by decide⟩,
    ⟨{ State.reset with rx := [0x02], resets := [[]] }, by decide⟩⟩

theorem witness_AssemblyExpansions : (AsmLine.skip 4).assemble.wellFormed = true := by decide

theorem witness_StepExecutesDecodedCommand :
    ∃ s : State, s.halted = false ∧ decode s.rx = .command .genword [] :=
  ⟨{ State.reset with rx := [0x03, 0x00, 0x00, 0x00] }, by decide⟩

theorem witness_StreamRunsItsCommandsInOrder :
    (∀ i ∈ [Instr.genword, Instr.process [0x01] 1], i.wellFormed = true) ∧ readyState.halted = false ∧ readyState.rx = [] := by decide

theorem witness_ResetSignal :
    (∃ s : State, s.halted = true ∧ s.rx = [] ∧ s.resets = [[], [0x03]]) ∧
    (∃ s : State, s.halted = false ∧ decode s.rx = .wait ∧ s.resets = [[]]) :=
  ⟨⟨{ haltedState with resets := [[], [0x03]] }, by decide⟩, ⟨{ State.reset with rx := [0x02], resets := [[]] }, by decide⟩⟩

/-- For ExpansionBufferWords, InitIsIdempotent and the INIT clauses of InitCommand, ProcessOutputContract and ReadyFlag. -/
theorem witness_InitOperands : zeros32.length = 32 ∧ zeros32.tail.length ≠ 32 ∧ State.reset.halted = false ∧
    readyState.halted = false := by decide

theorem witness_PPhaseStep : (syntheticGenerator 0).c.toNat < 1024 ∧ (syntheticGenerator 1023).c.toNat < 1024 := by decide

theorem witness_QPhaseStep : 1024 ≤ (syntheticGenerator 1024).c.toNat ∧ 1024 ≤ (syntheticGenerator 2047).c.toNat := by decide

theorem witness_GeneratorStepsFrame :
    (∀ m < 3, ((syntheticGenerator 2047).c.toNat + m) % 2048 ≠ (2 : TableIndex).toNat) ∧
    (∀ m < 3, ((syntheticGenerator 2047).c.toNat + m) % 2048 ≠ 1024 + (0 : TableIndex).toNat) := by decide

/-- For ZeroLengthProcess, FourByteProcess, ProcessIsSplittable, ProcessIsAnInvolution, GenwordCommand, GenwordFrame, ProcessFrame and
GenwordBetweenProcessCommands, with and without a byte pending. -/
theorem witness_ReadyStates : readyState.halted = false ∧ readyState.ready = true ∧ pendingState.halted = false ∧
    pendingState.ready = true ∧ pendingState.cipher.idx ≠ 0 ∧ ([0x01, 0x02, 0x03, 0x04] : List Byte).length = 4 ∧
    ([0x01] ++ [0x02, 0x03] : List Byte).length < 2 ^ 32 ∧ readyState.cipher.idx = 0 := by decide

theorem witness_ProcessIsAnInvolution : ∃ s s' : State, s.halted = false ∧ s.ready = true ∧ s'.halted = false ∧
    s'.ready = true ∧ s'.cipher = s.cipher ∧ s'.tx ≠ s.tx :=
  ⟨pendingState, { pendingState with tx := [0x00] }, rfl, rfl, rfl, rfl, rfl, by decide⟩

theorem witness_ProcessOutputContract : readyState.cipher.PendingOf [] 0 ∧
    pendingState.cipher.PendingOf [0x95, 0x8f, 0x9a, 0xd1] 3 := ⟨⟨rfl, rfl⟩, ⟨rfl, rfl⟩⟩

theorem witness_ProcessCommand : State.reset.halted = false ∧ State.reset.ready = false ∧ readyState.ready = true ∧
    (4 : Word).toNat ≠ ([0, 0, 0] : List Byte).length ∧ (3 : Word).toNat = ([0, 0, 0] : List Byte).length := by decide

theorem witness_FirstConditionIsReported :
    (∃ s t : State, s.halted = true ∧ step s = .next t) ∧
    (∃ s : State, s.halted = false ∧ decode s.rx = .illegal 7 []) :=
  ⟨⟨{ haltedState with rx := [0x01] }, { haltedState with rx := [] }, rfl, rfl⟩,
    ⟨{ State.reset with rx := [0x07, 0x00, 0x00, 0x00] }, by decide⟩⟩

theorem witness_ErrorsLeaveTheStateUnchanged : State.reset.halted = false ∧ reportedStatus .genword State.reset ≠ .ok ∧
    reportedStatus (.process [] 1) readyState ≠ .ok ∧ reportedStatus (.init [] []) readyState ≠ .ok ∧
    reportedStatus (.init zeros32 []) readyState ≠ .ok := by decide

theorem witness_HaltedCoreSwallows : haltedState.halted = true ∧ ({ haltedState with rx := [0x01] } : State).rx ≠ [] ∧
    haltedState.rx = [] ∧ haltedState.resets = [] := by decide

theorem witness_ReadyFlag_cleared : ∃ s t : State, step s = .next t ∧ s.ready = true ∧ t.ready = false :=
  ⟨{ readyState with resets := [[]] }, _, rfl, rfl, rfl⟩

theorem witness_ReadyFlag_set : ∃ s t : State, step s = .next t ∧ s.ready = false ∧ t.ready = true := by
  refine ⟨{ State.reset with rx := [0x01, 0, 0, 0, 32, 0, 0, 0, 32, 0, 0, 0] ++ zeros32 ++ zeros32 }, _,
    (step_command (i := .init zeros32 zeros32) (rest := []) rfl (by decide +kernel)).trans
      (execInit_ok (key := zeros32) (iv := zeros32) rfl rfl rfl), rfl, rfl⟩

theorem witness_OnlyGeneratorStepsChangeTheGenerator : ∃ s t : State, step s = .next t ∧ t.draws = s.draws :=
  ⟨{ readyState with rx := [0x03, 0x00, 0x00, 0x00] }, _, rfl, rfl⟩

/-- A ready state that meets the invariant and steps to another. -/
theorem witness_KeystreamInvariantKept : ∃ s t : State, KeystreamInv s ∧ s.ready = true ∧ step s = .next t := by
  refine ⟨{ State.reset with ready := true, cipher := freshCipher zeros32 zeros32, rx := [0x03, 0x00, 0x00, 0x00] }, _, ?_, rfl,
    (step_command (i := .genword) (rest := []) rfl (by decide)).trans (execGenword_ok rfl rfl)⟩
  intro _
  refine ⟨zeros32, zeros32, 0, rfl, rfl, (genSteps_zero _).symm, ?_, fun h => absurd rfl h⟩
  rw [freshCipher_gen, freshGenerator_eq, genSteps_c, warmupSteps_eq]
  rfl

theorem witness_ResetContentsUnobservable : ∃ s s' : State, SameButCipher s s' ∧ s.ready = false ∧ s.cipher.idx ≠ s'.cipher.idx :=
  ⟨State.reset, State.reset.setCipher pendingState.cipher, rfl, rfl, by decide⟩

end Sys2Proof.Tests
end

section
/-! PROOFS. The scope family: the little-endian conversions (R12) and the bounded arrival of every run at a wait. -/

namespace Sys2Proof.Machine

open Host

/-! ## The byte and word conversions -/

/-- The bytes of a word by value; the most significant one needs no reduction modulo 256 (R12). -/
theorem bytesLeList_map_toNat (w : Word) : (bytesLeList w).map BitVec.toNat =
    [w.toNat % 256, w.toNat / 2 ^ 8 % 256, w.toNat / 2 ^ 16 % 256, w.toNat / 2 ^ 24] := by
  have hw := w.isLt
  simp [bytesLeList_eq, byteOf_toNat]
  omega

/-- Settles O7, from the values of `le32` and of `byteOf` and the two inverse laws of R45. -/
theorem littleEndianConversions : Obligations.LittleEndianConversions :=
  ⟨fun b0 b1 b2 b3 => ⟨le32_toNat b0 b1 b2 b3, bytesLeList_le32 b0 b1 b2 b3⟩,
    fun w => ⟨bytesLeList_map_toNat w, le32_byteOf w⟩⟩

/-! ## What decoding takes off the stream -/

/-- What the decoding of CMD-I leaves is no longer than what followed the header (R62). -/
theorem decodeInit_rest_length_le {s rest : List Byte} {i : Instr} (h : decodeInit s = .command i rest) :
    rest.length ≤ s.length := by
  unfold decodeInit at h
  split at h
  · cases h
  next keyLen ivLen data hf =>
    split at h
    · cases h
    · cases h
      simp [operandFields_some hf]
      omega

/-- What the decoding of CMD-P leaves is no longer than what followed the header (R62). -/
theorem decodeProcess_rest_length_le {s rest : List Byte} {i : Instr} (h : decodeProcess s = .command i rest) :
    rest.length ≤ s.length := by
  unfold decodeProcess at h
  split at h
  · cases h
  next inLen outLen data hf =>
    split at h
    · cases h
    · cases h
      simp [operandFields_some hf]
      omega

theorem decodeInit_ne_illegal (s : List Byte) {hdr : Word} {rest : List Byte} : decodeInit s ≠ .illegal hdr rest := by
  unfold decodeInit
  repeat' split
  all_goals nofun

theorem decodeProcess_ne_illegal (s : List Byte) {hdr : Word} {rest : List Byte} :
    decodeProcess s ≠ .illegal hdr rest := by
  unfold decodeProcess
  repeat' split
  all_goals nofun

/-- A stream that does not wait holds a header. -/
theorem exists_header_of_decode_ne_wait {bs : List Byte} (h : decode bs ≠ .wait) :
    ∃ hdr s, bs = bytesLeList hdr ++ s := by
  match bs, h with
  | m0 :: m1 :: m2 :: m3 :: s, _ => exact ⟨_, s, header_bytes m0 m1 m2 m3 s⟩
  | [], h | [_], h | [_, _], h | [_, _, _], h => exact absurd rfl h

/-- A decoded command takes at least its header off the stream (R69). -/
theorem decode_command_rest_length {bs rest : List Byte} {i : Instr} (h : decode bs = .command i rest) :
    rest.length + 4 ≤ bs.length := by
  obtain ⟨hdr, s, rfl⟩ := exists_header_of_decode_ne_wait (h ▸ nofun : decode bs ≠ .wait)
  suffices hs : rest.length ≤ s.length by simp; omega
  rw [decode_header] at h
  split at h
  · cases h
  · cases h; exact le_rfl
  · exact decodeInit_rest_length_le h
  · exact decodeProcess_rest_length_le h

/-- An illegal header takes its four bytes off the stream (R68). -/
theorem decode_illegal_rest_length {bs rest : List Byte} {hdr : Word} (h : decode bs = .illegal hdr rest) :
    rest.length + 4 ≤ bs.length := by
  obtain ⟨hdr', s, rfl⟩ := exists_header_of_decode_ne_wait (h ▸ nofun : decode bs ≠ .wait)
  rw [decode_header] at h
  split at h
  · cases h; simp; omega
  · cases h
  · exact absurd h (decodeInit_ne_illegal s)
  · exact absurd h (decodeProcess_ne_illegal s)

/-! ## The wait at the end of every run -/

/-- A command touches neither the bytes still to be read nor the reset signals to come. -/
theorem exec_keeps_input {i : Instr} {s t : State} (h : exec i s = .next t) : t.rx = s.rx ∧ t.resets = s.resets := by
  obtain ⟨_, he⟩ | ⟨_, e, _, _, he⟩ | ⟨_, key, iv, _, _, _, he⟩ | ⟨_, _, input, outLen, _, _, he⟩ | ⟨_, _, _, he⟩ :=
    exec_cases i s <;> cases he.symm.trans h <;> simp

/-- A command neither stops the core nor is refused. -/
theorem exec_answers_next (i : Instr) (s : State) : ∃ t, exec i s = .next t := by
  obtain ⟨_, he⟩ | ⟨_, e, _, _, he⟩ | ⟨_, key, iv, _, _, _, he⟩ | ⟨_, _, input, outLen, _, _, he⟩ | ⟨_, _, _, he⟩ :=
    exec_cases i s <;> exact ⟨_, he⟩

/-- A step is never refused. -/
theorem step_next_or_fault (s : State) : (∃ t, step s = .next t) ∨ ∃ f, step s = .fault f := by
  cases hs : s.halted with
  | true =>
    rw [step_halted hs]
    obtain ⟨_, ho⟩ | ⟨_, _, _, _, ho⟩ | ⟨_, _, ho⟩ := haltedStep_cases (s := s) rfl
    · exact .inl ⟨_, ho⟩
    · exact .inl ⟨_, ho⟩
    · exact .inr ⟨_, ho⟩
  | false =>
    cases hd : decode s.rx with
    | wait =>
      rw [step_wait hs hd]
      obtain ⟨_, _, _, ho⟩ | ⟨_, _, ho⟩ | ⟨_, _, ho⟩ := awaitStep_cases (s := s) rfl
      · exact .inl ⟨_, ho⟩
      · exact .inr ⟨_, ho⟩
      · exact .inr ⟨_, ho⟩
    | illegal hdr rest =>
      rw [step_illegal hs hd, execIllegal_running (by simpa using hs)]
      exact .inl ⟨_, rfl⟩
    | command i rest =>
      rw [step_command hs hd]
      exact .inl (exec_answers_next i _)

/-- The input a state has still to take: the pending bytes, and each reset signal to come with the bytes after it. -/
def State.inputLeft (s : State) : Nat := s.rx.length + (s.resets.map fun bytes => bytes.length + 1).sum

theorem State.inputLeft_takeReset {s : State} {bytes : List Byte} {later : List (List Byte)}
    (h : s.resets = bytes :: later) : (s.takeReset bytes later).inputLeft < s.inputLeft := by
  simp [State.inputLeft, h]
  omega

/-- A step that answers a next state has taken some of the input. -/
theorem step_inputLeft_lt {s t : State} (h : step s = .next t) : t.inputLeft < s.inputLeft := by
  obtain ⟨_, hx, rfl⟩ | ⟨_, bytes, later, hr, rfl⟩ | ⟨_, hdr, rest, hd, rfl⟩ | ⟨_, i, rest, hd, he⟩ := step_cases h
  · simpa [State.inputLeft] using List.length_pos_iff.mpr hx
  · exact State.inputLeft_takeReset hr
  · have hl := decode_illegal_rest_length hd
    simp [State.inputLeft]
    omega
  · have hl := decode_command_rest_length hd
    obtain ⟨hrx, hresets⟩ := exec_keeps_input he
    simp [State.inputLeft, hrx, hresets]
    omega

theorem run_fault_of_step {s : State} {f : Fault} (h : step s = .fault f) : Core.run core 1 s = .fault f := by
  simp [Core.run, core, h]

theorem run_succ_of_step {s t : State} (h : step s = .next t) (k : Nat) :
    Core.run core (k + 1) s = Core.run core k t := by
  simp [Core.run, core, h]

/-- Settles O13, by induction on the input left: each step takes some of it or is the stop. -/
theorem everyRunComesToAWait : Obligations.EveryRunComesToAWait := by
  intro s
  show ∃ k f, k ≤ s.inputLeft + 1 ∧ Core.run core k s = .fault f
  induction hn : s.inputLeft using Nat.strong_induction_on generalizing s with
  | _ n ih =>
    subst hn
    obtain ⟨t, ht⟩ | ⟨f, hf⟩ := step_next_or_fault s
    · have hlt := step_inputLeft_lt ht
      obtain ⟨k, f, hk, hrun⟩ := ih t.inputLeft hlt t rfl
      exact ⟨k + 1, f, by omega, (run_succ_of_step ht k).trans hrun⟩
    · exact ⟨1, f, by omega, run_fault_of_step hf⟩

end Sys2Proof.Machine
end

section
/-! PROOFS. The state family: what a generator step leaves of the tables (R23, R49), how the cipher state moves along its keystream
(R24, R32, R129), the flag `ready` (R25), and what a core that is not ready hides (R34). -/

namespace Sys2Proof.Machine

open Host

/-! ## The frame of the generator -/

@[simp] theorem entryIndex_toNat (c : StepCounter) : (entryIndex c).toNat = c.toNat % 1024 := by simp [entryIndex]

/-- A step writes P in the P-phase alone, and there its own entry alone (R22, R49). -/
theorem gen_P_read_other {g : GeneratorState} {j : TableIndex} (hj : g.c.toNat ≠ j.toNat) :
    (gen g).2.P.read j = g.P.read j := by
  obtain ⟨hc, he⟩ | ⟨_, he⟩ := gen_cases g <;> rw [he]
  refine updatedTable_read_other _ _ fun hi => hj ?_
  rw [← hi, entryIndex_toNat, Nat.mod_eq_of_lt hc]

/-- A step writes Q in the Q-phase alone, and there its own entry alone (R22, R49). -/
theorem gen_Q_read_other {g : GeneratorState} {j : TableIndex} (hj : g.c.toNat ≠ 1024 + j.toNat) :
    (gen g).2.Q.read j = g.Q.read j := by
  obtain ⟨_, he⟩ | ⟨hc, he⟩ := gen_cases g <;> rw [he]
  refine updatedTable_read_other _ _ fun hi => hj ?_
  have hlt := g.c.isLt
  rw [← hi, entryIndex_toNat]
  omega

theorem genSteps_succ_last (n : Nat) (g : GeneratorState) : genSteps (n + 1) g = (gen (genSteps n g)).2 :=
  genSteps_add n 1 g

theorem genSteps_c_toNat (n : Nat) (g : GeneratorState) :
    (genSteps n g).c.toNat = (g.c.toNat + n) % 2048 := by
  simp [genSteps_c]

/-- What each of `n` steps leaves as it was, all of them leave. -/
theorem genSteps_frame {α : Type} (f : GeneratorState → α) {n : Nat} {g : GeneratorState}
    (hf : ∀ m < n, f (gen (genSteps m g)).2 = f (genSteps m g)) : f (genSteps n g) = f g := by
  induction n with
  | zero => rfl
  | succ n ih => rw [genSteps_succ_last, hf n n.lt_succ_self, ih fun m hm => hf m (by omega)]

/-- Settles O24: step m has the counter c + m, and by the frame of one step it leaves the entry as it was. -/
theorem generatorStepsFrame : Obligations.GeneratorStepsFrame := by
  intro n g j
  refine ⟨fun hj => ?_, fun hj => ?_⟩
  · exact genSteps_frame (·.P.read j) fun m hm => gen_P_read_other (by rw [genSteps_c_toNat]; exact hj m hm)
  · exact genSteps_frame (·.Q.read j) fun m hm => gen_Q_read_other (by rw [genSteps_c_toNat]; exact hj m hm)

/-! ## A cipher state along its keystream -/

theorem ksWord_genSteps (m n : Nat) (g : GeneratorState) : ksWord (genSteps m g) n = ksWord g (m + n) := by
  simp only [ksWord, genSteps_add]

/-- `k'` is what `k` can become by `n` generator steps: its pending bytes, if any, were pending in `k` or are of one of the words
of these steps (R23, R24). -/
def CipherState.AdvancesTo (k : CipherState) (n : Nat) (k' : CipherState) : Prop :=
  k'.gen = genSteps n k.gen ∧
    (k'.idx ≠ 0 → (k.idx ≠ 0 ∧ k'.buf = k.buf) ∨ ∃ m < n, k'.buf = bytesLe (ksWord k.gen m))

theorem CipherState.AdvancesTo.refl (k : CipherState) : k.AdvancesTo 0 k := ⟨rfl, fun hi => .inl ⟨hi, rfl⟩⟩

theorem CipherState.AdvancesTo.trans {k k' k'' : CipherState} {m n : Nat} (h : k.AdvancesTo m k')
    (h' : k'.AdvancesTo n k'') : k.AdvancesTo (m + n) k'' := by
  obtain ⟨hgen, hbuf⟩ := h
  obtain ⟨hgen', hbuf'⟩ := h'
  refine ⟨by rw [hgen', hgen, genSteps_add], fun hi => ?_⟩
  obtain ⟨hi', hb'⟩ | ⟨j, hj, hb'⟩ := hbuf' hi
  · obtain ⟨hi'', hb⟩ | ⟨j, hj, hb⟩ := hbuf hi'
    · exact .inl ⟨hi'', hb'.trans hb⟩
    · exact .inr ⟨j, by omega, hb'.trans hb⟩
  · exact .inr ⟨m + j, by omega, by rw [hb', hgen, ksWord_genSteps]⟩

/-- GENWORD: one step, the pending bytes as they were (R163). -/
theorem gen_advancesTo (k : CipherState) : k.AdvancesTo 1 { k with gen := (gen k.gen).2 } :=
  ⟨rfl, fun hi => .inl ⟨hi, rfl⟩⟩

/-- Step (a) makes no generator step (R141). -/
theorem consumePending_advancesTo (k : CipherState) (bs : List Byte) : k.AdvancesTo 0 (consumePending k bs).2.2 := by
  obtain ⟨_, _, hgen, hbuf, hidx⟩ := consumePending_eq k bs
  refine ⟨hgen, fun hi => .inl ⟨fun hk => hi (Fin.ext ?_), hbuf⟩⟩
  simp [hidx, hk]

/-- Steps (b) and (c) on whole words of input leave the pending buffer alone (R141). -/
theorem freshBytes_cipher_of_mod_eq_zero (k : CipherState) {bs : List Byte} (hbs : bs.length % 4 = 0) :
    (freshBytes k bs).2 = { k with gen := genSteps (bs.length / 4) k.gen } := by
  have hdrop : bs.drop (4 * (bs.length / 4)) = [] := List.drop_eq_nil_of_le (by omega)
  simp [freshBytes, wholeWords_eq, hdrop]

/-- With 1 to 3 bytes past the last whole word, steps (b) and (c) leave the word after the whole ones in the pending buffer
(R141). -/
theorem freshBytes_cipher_of_mod_ne_zero (k : CipherState) {bs : List Byte} (hbs : bs.length % 4 ≠ 0) :
    (freshBytes k bs).2 =
      { gen := genSteps (bs.length / 4 + 1) k.gen
        buf := bytesLe (ksWord k.gen (bs.length / 4))
        idx := Fin.ofNat 4 (4 - bs.length % 4) } := by
  have hlen : (bs.drop (4 * (bs.length / 4))).length = bs.length % 4 := by rw [List.length_drop]; omega
  have hne : bs.drop (4 * (bs.length / 4)) ≠ [] := fun hnil => hbs (by rw [← hlen, hnil]; rfl)
  simp only [freshBytes, wholeWords_eq, trailingBytes_eq _ hne, hlen, genSteps_succ_last, ksWord]

/-- Steps (b) and (c) make one generator step for each four bytes of input or part of them (R144). -/
theorem freshBytes_advancesTo (k : CipherState) (bs : List Byte) :
    k.AdvancesTo ((bs.length + 3) / 4) (freshBytes k bs).2 := by
  by_cases hbs : bs.length % 4 = 0
  · have hn : (bs.length + 3) / 4 = bs.length / 4 := by omega
    rw [freshBytes_cipher_of_mod_eq_zero k hbs, hn]
    exact ⟨rfl, fun hi => .inl ⟨hi, rfl⟩⟩
  · have hn : (bs.length + 3) / 4 = bs.length / 4 + 1 := by omega
    rw [freshBytes_cipher_of_mod_ne_zero k hbs, hn]
    exact ⟨rfl, fun _ => .inr ⟨bs.length / 4, by omega, rfl⟩⟩

/-- PROCESS makes the generator steps R144 counts. -/
theorem process_advancesTo (k : CipherState) (input : List Byte) :
    k.AdvancesTo (wordCount k.idx.val input.length) (process k input).2 := by
  obtain ⟨_, hrest, _⟩ := consumePending_eq k input
  have hn : wordCount k.idx.val input.length = 0 + ((consumePending k input).2.1.length + 3) / 4 := by
    rw [hrest, List.length_drop, wordCount]
    omega
  rw [hn]
  exact (consumePending_advancesTo k input).trans (freshBytes_advancesTo _ _)

/-- What a command that answers a next state does to `ready` and the cipher state (R23, R25): a successful INIT replaces
the cipher state; any other command leaves `ready` and moves the cipher state along its keystream. -/
theorem exec_cipher_cases {i : Instr} {s t : State} (h : exec i s = .next t) :
    (∃ key iv, i = .init key iv ∧ key.length = 32 ∧ iv.length = 32 ∧ t.ready = true ∧ t.cipher = freshCipher key iv) ∨
    (t.ready = s.ready ∧ ∃ n, s.cipher.AdvancesTo n t.cipher ∧ (n ≠ 0 → s.ready = true)) := by
  obtain ⟨_, he⟩ | ⟨_, e, _, _, he⟩ | ⟨_, key, iv, hi, hk, hv, he⟩ | ⟨_, hr, input, outLen, _, _, he⟩ |
    ⟨_, hr, _, he⟩ := exec_cases i s <;> cases he.symm.trans h
  · exact .inr ⟨rfl, 0, .refl _, fun h0 => absurd rfl h0⟩
  · exact .inr ⟨rfl, 0, .refl _, fun h0 => absurd rfl h0⟩
  · exact .inl ⟨key, iv, hi, hk, hv, rfl, rfl⟩
  · exact .inr ⟨rfl, _, process_advancesTo s.cipher input, fun _ => hr⟩
  · exact .inr ⟨rfl, 1, gen_advancesTo s.cipher, fun _ => hr⟩

/-- What a step does to `ready` and the cipher state (R23, R25): a reset signal, a successful INIT, or a move along the keystream,
which is no generator step at all unless the core is ready and not halted. -/
theorem step_cipher_cases {s t : State} (h : step s = .next t) :
    (∃ bytes later, s.resets = bytes :: later ∧ t = s.takeReset bytes later) ∨
    (∃ key iv rest, decode s.rx = .command (.init key iv) rest ∧ key.length = 32 ∧ iv.length = 32 ∧
      t.ready = true ∧ t.cipher = freshCipher key iv) ∨
    (t.ready = s.ready ∧ ∃ n, s.cipher.AdvancesTo n t.cipher ∧ (n ≠ 0 → s.ready = true ∧ s.halted = false)) := by
  obtain ⟨_, _, rfl⟩ | ⟨_, bytes, later, hr, rfl⟩ | ⟨_, hdr, rest, _, rfl⟩ | ⟨hs, i, rest, hd, he⟩ := step_cases h
  · exact .inr (.inr ⟨rfl, 0, .refl _, fun h0 => absurd rfl h0⟩)
  · exact .inl ⟨bytes, later, hr, rfl⟩
  · exact .inr (.inr ⟨rfl, 0, .refl _, fun h0 => absurd rfl h0⟩)
  · obtain ⟨key, iv, rfl, hk, hv, hready, hcipher⟩ | ⟨hready, n, hn, hpos⟩ := exec_cipher_cases he
    · exact .inr (.inl ⟨key, iv, rest, hd, hk, hv, hready, hcipher⟩)
    · exact .inr (.inr ⟨hready, n, hn, fun h0 => ⟨hpos h0, hs⟩⟩)

/-- Settles O44: of the three kinds of step, only the reset signal changes `draws`, and the last one makes generator steps. -/
theorem onlyGeneratorStepsChangeTheGenerator : Obligations.OnlyGeneratorStepsChangeTheGenerator := by
  intro s t h hdraws
  obtain ⟨bytes, later, _, rfl⟩ | ⟨key, iv, rest, hd, hk, hv, _, hcipher⟩ | ⟨_, n, ⟨hgen, _⟩, hpos⟩ :=
    step_cipher_cases h
  · simp at hdraws
  · exact .inl ⟨key, iv, rest, hd, hk, hv, hcipher⟩
  · exact .inr ⟨n, hgen, by rw [hgen, genSteps_c_toNat], hpos⟩

/-! ## The keystream invariant -/

/-- The 4096 warm-up steps bring the counter back to 0 (R127). -/
theorem freshGenerator_c_toNat (key iv : List Byte) : (freshGenerator key iv).c.toNat = 0 := by
  have h0 : (loadedGenerator key iv).c.toNat = 0 := rfl
  rw [freshGenerator_eq, genSteps_c_toNat, h0, warmupSteps_eq]

/-- The invariant says that the cipher state of a ready core lies on the keystream of a fresh one; its clause on the counter
follows. -/
theorem keystreamInv_iff (s : State) : KeystreamInv s ↔ (s.ready = true → ∃ (key iv : List Byte) (n : Nat),
    key.length = 32 ∧ iv.length = 32 ∧ (freshCipher key iv).AdvancesTo n s.cipher) := by
  refine imp_congr_right fun _ => exists_congr fun key => exists_congr fun iv => exists_congr fun n =>
    and_congr_right fun _ => and_congr_right fun _ => ?_
  simp only [CipherState.AdvancesTo, freshCipher_gen, freshCipher_idx, ne_eq, not_true_eq_false, false_and, false_or]
  refine and_congr_right fun hgen => and_iff_right ?_
  rw [hgen, genSteps_c_toNat, freshGenerator_c_toNat, Nat.zero_add]

/-- Settles O45: a reset clears `ready`, a successful INIT starts a keystream, and any other step moves along it. -/
theorem keystreamInvariantKept : Obligations.KeystreamInvariantKept := by
  intro s t hs h
  rw [keystreamInv_iff] at hs ⊢
  intro ht
  obtain ⟨bytes, later, _, rfl⟩ | ⟨key, iv, _, _, hk, hv, _, hcipher⟩ | ⟨hready, n, hn, _⟩ := step_cipher_cases h
  · simp at ht
  · exact ⟨key, iv, 0, hk, hv, hcipher ▸ .refl _⟩
  · obtain ⟨key, iv, m, hk, hv, hm⟩ := hs (hready ▸ ht)
    exact ⟨key, iv, m + n, hk, hv, hm.trans hn⟩

theorem keystreamInv_of_not_ready {s : State} (hr : s.ready = false) : KeystreamInv s :=
  fun h => absurd (hr.symm.trans h) Bool.false_ne_true

/-- Settles O46: after reset the core is not ready, which is all the invariant asks. -/
theorem keystreamInvariantAtReset : Obligations.KeystreamInvariantAtReset :=
  ⟨keystreamInv_of_not_ready rfl, rfl, rfl⟩

/-! ## The flag `ready` -/

theorem exec_init (key iv : List Byte) (s : State) : exec (.init key iv) s = execInit key iv s := rfl

theorem exec_process (input : List Byte) (outLen : Word) (s : State) :
    exec (.process input outLen) s = execProcess input outLen s := rfl

theorem exec_genword (s : State) : exec .genword s = execGenword s := rfl

/-- A halted core executes nothing (R165). -/
theorem exec_halted {s : State} (hs : s.halted = true) (i : Instr) : exec i s = .next s := by
  cases i with
  | init key iv => rw [exec_init, execInit_halted hs]
  | process input outLen => rw [exec_process, execProcess_halted hs]
  | genword => rw [exec_genword, execGenword_halted hs]

/-- INIT leaves `ready` set when both lengths are 32 and as it was otherwise (R25). -/
theorem execInit_ready {s : State} (hs : s.halted = false) (key iv : List Byte) :
    ∃ t, execInit key iv s = .next t ∧ t.ready = (if key.length = 32 ∧ iv.length = 32 then true else s.ready) := by
  by_cases hk : key.length = 32
  · by_cases hv : iv.length = 32
    · exact ⟨_, execInit_ok hs hk hv, by simp [hk, hv]⟩
    · exact ⟨_, execInit_badIV hs hk hv, by simp [hv]⟩
  · exact ⟨_, execInit_badKey hs iv hk, by simp [hk]⟩

/-- Settles O43: the first two clauses from the three kinds of step, the others from the equations of the commands. -/
theorem readyFlag : Obligations.ReadyFlag := by
  refine ⟨fun s t h hs ht => ?cleared, fun s t h hs ht => ?set, fun key iv s hs => execInit_ready hs key iv, ?needed⟩
  case cleared =>
    obtain hreset | ⟨_, _, _, _, _, _, hready, _⟩ | ⟨hready, _⟩ := step_cipher_cases h
    · exact hreset
    · simp [hready] at ht
    · simp [hready, hs] at ht
  case set =>
    obtain ⟨_, _, _, rfl⟩ | ⟨key, iv, rest, hd, hk, hv, _⟩ | ⟨hready, _⟩ := step_cipher_cases h
    · simp at ht
    · exact ⟨key, iv, rest, hd, hk, hv⟩
    · simp [hready, hs] at ht
  case needed =>
    have herr : ∀ s : State, s.raiseError .notInitialized = { s with tx := s.tx ++ statusBytes .notInitialized } :=
      fun s => s.raiseError_eq (by decide)
    rintro i s hs hr (rfl | ⟨input, outLen, rfl⟩)
    · rw [exec_genword, execGenword_notReady hs hr, herr]
    · rw [exec_process, execProcess_notReady hs hr, herr]

/-! ## What a core that is not ready hides -/

@[simp] theorem State.setCipher_setCipher (s : State) (k k' : CipherState) :
    (s.setCipher k).setCipher k' = s.setCipher k' := rfl

/-- A reset signal keeps nothing of the cipher state (R220). -/
@[simp] theorem State.takeReset_setCipher (s : State) (k : CipherState) (bytes : List Byte) (later : List (List Byte)) :
    (s.setCipher k).takeReset bytes later = s.takeReset bytes later := rfl

theorem State.consume_setCipher (s : State) (k : CipherState) (rest : List Byte) :
    (s.setCipher k).consume rest = (s.consume rest).setCipher k := rfl

theorem State.raiseError_setCipher (s : State) (k : CipherState) (e : Status) :
    (s.setCipher k).raiseError e = (s.raiseError e).setCipher k := rfl

/-- The host cannot tell `s` and `s'` apart, now or later (R34): they differ in the cipher state at most, and only while
not ready. -/
def State.LooksLike (s s' : State) : Prop := SameButCipher s s' ∧ (s.ready = true → s' = s)

/-- Both outcomes are next states that look alike, or both are the same stop. -/
def OutcomesAlike (o o' : Outcome State Fault Refusal) : Prop :=
  (∃ t t', o = .next t ∧ o' = .next t' ∧ t.LooksLike t') ∨ ∃ f, o = .fault f ∧ o' = .fault f

theorem State.LooksLike.refl (s : State) : s.LooksLike s := ⟨rfl, fun _ => rfl⟩

theorem State.looksLike_setCipher {s : State} (hr : s.ready = false) (k : CipherState) : s.LooksLike (s.setCipher k) :=
  ⟨rfl, fun h => absurd (hr.symm.trans h) Bool.false_ne_true⟩

theorem OutcomesAlike.next {t t' : State} (h : t.LooksLike t') : OutcomesAlike (.next t) (.next t') :=
  .inl ⟨t, t', rfl, rfl, h⟩

theorem OutcomesAlike.fault (f : Fault) : OutcomesAlike (.fault f) (.fault f) := .inr ⟨f, rfl, rfl⟩

/-- A step never answers a refusal, so any of its outcomes is alike itself. -/
theorem OutcomesAlike.refl_step (s : State) : OutcomesAlike (step s) (step s) := by
  obtain ⟨t, ht⟩ | ⟨f, hf⟩ := step_next_or_fault s
  · rw [ht]; exact .next (.refl t)
  · rw [hf]; exact .fault f

/-- A core that waits reads its input alone (R70, R220). -/
theorem awaitStep_alike (s : State) (k : CipherState) : OutcomesAlike (awaitStep s) (awaitStep (s.setCipher k)) := by
  unfold awaitStep
  rw [State.setCipher_rx, State.setCipher_resets]
  split
  · rw [State.takeReset_setCipher]; exact .next (.refl _)
  · exact .fault _
  · exact .fault _

section NotReady

variable {s : State} (hr : s.ready = false) (k : CipherState)
include hr

theorem raiseError_alike (e : Status) :
    OutcomesAlike (.next (s.raiseError e)) (.next ((s.setCipher k).raiseError e)) := by
  rw [State.raiseError_setCipher]
  exact .next (State.looksLike_setCipher (s := s.raiseError e) hr k)

/-- No command reads the cipher state of a core that is not ready, and a successful INIT replaces it (R34, R161). -/
theorem exec_alike (i : Instr) : OutcomesAlike (exec i s) (exec i (s.setCipher k)) := by
  cases hs : s.halted with
  | true =>
    rw [exec_halted hs, exec_halted (s := s.setCipher k) hs]
    exact .next (State.looksLike_setCipher hr k)
  | false =>
    have hs' : (s.setCipher k).halted = false := hs
    have hr' : (s.setCipher k).ready = false := hr
    cases i with
    | init key iv =>
      rw [exec_init, exec_init]
      by_cases hk : key.length = 32
      · by_cases hv : iv.length = 32
        · rw [execInit_ok hs hk hv, execInit_ok hs' hk hv, State.setCipher_setCipher]
          exact .next (.refl _)
        · rw [execInit_badIV hs hk hv, execInit_badIV hs' hk hv]
          exact raiseError_alike hr k _
      · rw [execInit_badKey hs iv hk, execInit_badKey hs' iv hk]
        exact raiseError_alike hr k _
    | process input outLen =>
      rw [exec_process, exec_process, execProcess_notReady hs hr, execProcess_notReady hs' hr']
      exact raiseError_alike hr k _
    | genword =>
      rw [exec_genword, exec_genword, execGenword_notReady hs hr, execGenword_notReady hs' hr']
      exact raiseError_alike hr k _

/-- A halted core reads its input alone (R165). -/
theorem haltedStep_alike : OutcomesAlike (haltedStep s) (haltedStep (s.setCipher k)) := by
  unfold haltedStep
  rw [State.setCipher_rx, State.setCipher_resets]
  split
  · exact .next (State.looksLike_setCipher (s := s.consume []) hr k)
  · rw [State.takeReset_setCipher]; exact .next (.refl _)
  · exact .fault _

/-- A step of a core that is not ready does not depend on what its cipher state holds (R34). -/
theorem step_setCipher_alike : OutcomesAlike (step s) (step (s.setCipher k)) := by
  cases hs : s.halted with
  | true =>
    rw [step_halted hs, step_halted (s := s.setCipher k) hs]
    exact haltedStep_alike hr k
  | false =>
    cases hd : decode s.rx with
    | wait =>
      rw [step_wait hs hd, step_wait (s := s.setCipher k) hs hd]
      exact awaitStep_alike s k
    | illegal hdr rest =>
      rw [step_illegal hs hd, step_illegal (s := s.setCipher k) hs hd, execIllegal_running (s := s.consume rest) hs,
        execIllegal_running (s := (s.setCipher k).consume rest) hs]
      exact raiseError_alike (s := s.consume rest) hr k _
    | command i rest =>
      rw [step_command hs hd, step_command (s := s.setCipher k) hs hd, State.consume_setCipher]
      exact exec_alike (s := s.consume rest) hr k i

end NotReady

/-- Two cores the host cannot tell apart take alike steps: they are one core, or neither is ready. -/
theorem step_alike {s s' : State} (h : s.LooksLike s') : OutcomesAlike (step s) (step s') := by
  obtain ⟨hsame, heq⟩ := h
  cases hr : s.ready with
  | true => rw [heq hr]; exact .refl_step s
  | false => rw [← (hsame : s.setCipher s'.cipher = s')]; exact step_setCipher_alike hr s'.cipher

theorem run_succ_fault_of_step {s : State} {f : Fault} (h : step s = .fault f) (n : Nat) :
    Core.run core (n + 1) s = .fault f := by
  simp [Core.run, core, h]

theorem run_alike (n : Nat) {s s' : State} (h : s.LooksLike s') :
    OutcomesAlike (Core.run core n s) (Core.run core n s') := by
  induction n generalizing s s' with
  | zero => exact .next h
  | succ n ih =>
    obtain ⟨t, t', ht, ht', hlike⟩ | ⟨f, hf, hf'⟩ := step_alike h
    · rw [run_succ_of_step ht, run_succ_of_step ht']
      exact ih hlike
    · rw [run_succ_fault_of_step hf, run_succ_fault_of_step hf']
      exact .fault f

/-- States that look alike have sent the same bytes and hold the same flags. -/
theorem State.LooksLike.same_output {s s' : State} (h : s.LooksLike s') :
    s'.tx = s.tx ∧ s'.ready = s.ready ∧ s'.halted = s.halted := by
  rw [← (h.1 : s.setCipher s'.cipher = s')]
  exact ⟨rfl, rfl, rfl⟩

/-- Settles O47: looking alike is kept by every step, so by every run. -/
theorem resetContentsUnobservable : Obligations.ResetContentsUnobservable := by
  refine ⟨rfl, rfl, fun n s s' hsame hr => ?_⟩
  have hlike : s.LooksLike s' := ⟨hsame, fun h => absurd (hr.symm.trans h) Bool.false_ne_true⟩
  obtain ⟨t, t', ht, ht', hl⟩ | ⟨f, hf, hf'⟩ := run_alike n hlike
  · rw [ht, ht']
    refine ⟨fun u hu => ?_, nofun⟩
    cases hu
    obtain ⟨htx, hready, hhalted⟩ := hl.same_output
    exact ⟨t', rfl, htx, hready, hhalted, hl.2⟩
  · rw [hf, hf']
    exact ⟨nofun, fun _ => id⟩

end Sys2Proof.Machine
end

section
/-! PROOFS. The memory family: a stream of messages runs as its commands (R48, R60), and INIT is idempotent (R51). -/

namespace Sys2Proof.Machine

open Host

/-! ## The message of a command decodes to it -/

theorem decodeInit_operands {key iv : List Byte} (hk : key.length < 2 ^ 32) (hv : iv.length < 2 ^ 32) (rest : List Byte) :
    decodeInit (bytesLeList (zextWord key.length) ++ (bytesLeList (zextWord iv.length) ++ (key ++ (iv ++ rest)))) =
      .command (.init key iv) rest := by
  simp [decodeInit, operandFields_bytes, zextWord_toNat hk, zextWord_toNat hv, ← List.drop_drop]

theorem decodeProcess_operands {input : List Byte} (hn : input.length < 2 ^ 32) (outLen : Word) (rest : List Byte) :
    decodeProcess (bytesLeList (zextWord input.length) ++ (bytesLeList outLen ++ (input ++ rest))) =
      .command (.process input outLen) rest := by
  simp [decodeProcess, operandFields_bytes, zextWord_toNat hn]

/-- Decoding is a left inverse of encoding, whatever bytes follow the message (R62, R69). -/
theorem decode_encode_append {i : Instr} (hi : i.wellFormed = true) (rest : List Byte) :
    decode (encode i ++ rest) = .command i rest := by
  cases i with
  | init key iv =>
    obtain ⟨hk, hv⟩ : key.length < 2 ^ 32 ∧ iv.length < 2 ^ 32 := by simpa [Instr.wellFormed, fitsLengthField] using hi
    simp only [encode, List.append_assoc, decode_header, opcodeOf_headerOf_init, decodeInit_operands hk hv]
  | process input outLen =>
    have hn : input.length < 2 ^ 32 := by simpa [Instr.wellFormed, fitsLengthField] using hi
    simp only [encode, List.append_assoc, decode_header, opcodeOf_headerOf_process, decodeProcess_operands hn]
  | genword => simp only [encode, List.append_assoc, decode_header, opcodeOf_headerOf_genword, List.nil_append]

/-! ## A stream of commands -/

/-- A command does not read the stream after its message: it does the same whatever is still to be read (R60). -/
theorem exec_consume {i : Instr} {s t : State} (h : exec i s = .next t) (rest : List Byte) :
    exec i (s.consume rest) = .next (t.consume rest) := by
  cases hs : s.halted with
  | true => cases (exec_halted hs i).symm.trans h; exact exec_halted (s := s.consume rest) hs i
  | false =>
    have hs' : (s.consume rest).halted = false := hs
    cases i with
    | init key iv =>
      by_cases hk : key.length = 32
      · by_cases hv : iv.length = 32
        · cases (execInit_ok hs hk hv).symm.trans h; exact execInit_ok hs' hk hv
        · cases (execInit_badIV hs hk hv).symm.trans h; exact execInit_badIV hs' hk hv
      · cases (execInit_badKey hs iv hk).symm.trans h; exact execInit_badKey hs' iv hk
    | process input outLen =>
      cases hr : s.ready with
      | false =>
        cases (execProcess_notReady hs hr input outLen).symm.trans h
        exact execProcess_notReady hs' hr input outLen
      | true =>
        by_cases hl : outLen.toNat = input.length
        · cases (execProcess_ok hs hr hl).symm.trans h; exact execProcess_ok hs' hr hl
        · cases (execProcess_mismatch hs hr hl).symm.trans h; exact execProcess_mismatch hs' hr hl
    | genword =>
      cases hr : s.ready with
      | false => cases (execGenword_notReady hs hr).symm.trans h; exact execGenword_notReady hs' hr
      | true => cases (execGenword_ok hs hr).symm.trans h; exact execGenword_ok hs' hr

/-- No command halts the core; only an illegal header does (R26). -/
theorem exec_keeps_halted {i : Instr} {s t : State} (h : exec i s = .next t) : t.halted = s.halted := by
  obtain ⟨_, he⟩ | ⟨_, e, _, hill, he⟩ | ⟨_, key, iv, _, _, _, he⟩ | ⟨_, _, input, outLen, _, _, he⟩ | ⟨_, _, _, he⟩ :=
    exec_cases i s <;> cases he.symm.trans h
  · rfl
  · simp [hill]
  all_goals simp

theorem execAll_cons_of_next {i : Instr} {s t : State} (h : exec i s = .next t) (is : List Instr) :
    execAll (i :: is) s = execAll is t := by
  simp [execAll, h]

/-- On a running core with the message of a command at the front of the stream, a step executes that command and leaves the
rest of the stream (R160). -/
theorem step_encode_append {s : State} (hs : s.halted = false) {i : Instr} (hi : i.wellFormed = true) (rest : List Byte) :
    step (s.consume (encode i ++ rest)) = exec i (s.consume rest) :=
  step_command (s := s.consume (encode i ++ rest)) hs (decode_encode_append hi rest)

/-- A run over the messages of a list of commands is their execution in order, and ends with the stream consumed. -/
theorem run_encoded_stream {cmds : List Instr} (hcmds : ∀ i ∈ cmds, i.wellFormed = true) {s : State}
    (hs : s.halted = false) :
    Core.run core cmds.length (s.consume (cmds.flatMap encode)) = execAll cmds (s.consume []) := by
  induction cmds generalizing s with
  | nil => rfl
  | cons i is ih =>
    obtain ⟨hi, his⟩ := List.forall_mem_cons.mp hcmds
    obtain ⟨t, ht⟩ := exec_answers_next i s
    have hstep : step (s.consume (encode i ++ is.flatMap encode)) = .next (t.consume (is.flatMap encode)) :=
      (step_encode_append hs hi _).trans (exec_consume ht _)
    rw [execAll_cons_of_next (exec_consume ht []), List.flatMap_cons, List.length_cons, run_succ_of_step hstep]
    exact ih his ((exec_keeps_halted ht).trans hs)

/-- Settles O10: the run over the encoded stream, where consuming an empty stream changes nothing. -/
theorem streamRunsItsCommandsInOrder : Obligations.StreamRunsItsCommandsInOrder := by
  intro cmds s hcmds hs hrx
  have hnil : s.consume [] = s := by rw [← hrx]; rfl
  exact (run_encoded_stream hcmds hs).trans (by rw [hnil])

/-! ## INIT twice -/

/-- What INIT with a 32-byte key and IV leaves on a running core: the fresh instance, which depends on key and IV alone
(R161). -/
theorem exec_init_ok {s : State} (hs : s.halted = false) {key iv : List Byte} (hk : key.length = 32)
    (hv : iv.length = 32) :
    ∃ t, exec (.init key iv) s = .next t ∧ t.cipher = freshCipher key iv ∧ t.ready = true ∧ t.halted = false :=
  ⟨_, execInit_ok hs hk hv, by simp, by simp, by simpa using hs⟩

/-- Settles O38: each of the three INITs leaves the instance that key and IV determine. -/
theorem initIsIdempotent : Obligations.InitIsIdempotent := by
  intro key iv s s' hs hs' hk hv
  obtain ⟨t, ht, htc, htr, hth⟩ := exec_init_ok hs hk hv
  obtain ⟨t', ht', htc', htr', _⟩ := exec_init_ok hs' hk hv
  obtain ⟨u, hu, huc, hur, huh⟩ := exec_init_ok hth hk hv
  exact ⟨t, t', u, ht, ht', htc.trans htc'.symm, htr, htr', hu, huc.trans htc.symm, hur.trans htr.symm,
    huh.trans hth.symm⟩

end Sys2Proof.Machine
end

section
/-! PROOFS. The encoding family: the decoder against the encoder (R62, R69), illegal headers (R68, R164), incomplete messages and the
stops of a step (R70), the assembler's expansions and the involution of PROCESS (R71), and the bytes of a response (R64). -/

namespace Sys2Proof.Machine

/-! ## Encoding and decoding commands -/

/-- Settles O1: the five messages are literals, so the decoder runs on them. -/
theorem writtenOutMessagesDecode : Obligations.WrittenOutMessagesDecode := by
  unfold Obligations.WrittenOutMessagesDecode
  decide

/-- Settles O2, by the left inverse law of the encoder. -/
theorem messageRoundTrip : Obligations.MessageRoundTrip := fun _ rest hi => decode_encode_append hi rest

/-- A length field that was read is the encoding of the length of the data taken for it. -/
theorem zextWord_length_take {len : Word} {data : List Byte} (h : len.toNat ≤ data.length) :
    zextWord (data.take len.toNat).length = len := by
  rw [List.length_take_of_le h, zextWord_toNat_self]

theorem fitsLengthField_length_take (len : Word) (data : List Byte) :
    fitsLengthField (data.take len.toNat).length = true := by
  have hlt := len.isLt
  simp [fitsLengthField, hlt]

/-- What CMD-I is decoded from: the rest of its message (R62). -/
theorem eq_of_decodeInit_eq_command {s rest : List Byte} {i : Instr} (h : decodeInit s = .command i rest) :
    i.wellFormed = true ∧ bytesLeList 0x00000001 ++ s = encode i ++ rest := by
  unfold decodeInit at h
  split at h
  · cases h
  next keyLen ivLen data hf =>
    split at h
    · cases h
    next hlen =>
      cases h
      have hk : keyLen.toNat ≤ data.length := by omega
      have hv : ivLen.toNat ≤ (data.drop keyLen.toNat).length := by rw [List.length_drop]; omega
      refine ⟨by simp only [Instr.wellFormed, fitsLengthField_length_take, Bool.and_self], ?_⟩
      simp only [encode, headerOf, zextWord_length_take hk, zextWord_length_take hv, operandFields_some hf,
        List.append_assoc, ← List.drop_drop, List.take_append_drop]

/-- What CMD-P is decoded from: the rest of its message (R62). -/
theorem eq_of_decodeProcess_eq_command {s rest : List Byte} {i : Instr} (h : decodeProcess s = .command i rest) :
    i.wellFormed = true ∧ bytesLeList 0x00000002 ++ s = encode i ++ rest := by
  unfold decodeProcess at h
  split at h
  · cases h
  next inLen outLen data hf =>
    split at h
    · cases h
    next hlen =>
      cases h
      have hn : inLen.toNat ≤ data.length := by omega
      refine ⟨fitsLengthField_length_take inLen data, ?_⟩
      simp only [encode, headerOf, zextWord_length_take hn, operandFields_some hf, List.append_assoc,
        List.take_append_drop]

/-- The one header word that names an opcode (R67). -/
def headerOfOpcode : Opcode → Word
  | .init => 0x00000001
  | .process => 0x00000002
  | .genword => 0x00000003

theorem opcodeOf_eq_some_iff {hdr : Word} {op : Opcode} : opcodeOf hdr = some op ↔ hdr = headerOfOpcode op := by
  constructor
  · rw [opcodeOf_eq]
    intro h
    split at h
    · cases h; assumption
    · split at h
      · cases h; assumption
      · split at h <;> cases h
        assumption
  · rintro rfl
    cases op <;> decide

/-- The decoder answers a command exactly on the streams that begin with the message of that command, when it has one
(R62, R69). -/
theorem decode_eq_command_iff {bs rest : List Byte} {i : Instr} :
    decode bs = .command i rest ↔ i.wellFormed = true ∧ bs = encode i ++ rest := by
  refine ⟨fun h => ?_, fun ⟨hi, hbs⟩ => hbs ▸ decode_encode_append hi rest⟩
  obtain ⟨hdr, s, rfl⟩ := exists_header_of_decode_ne_wait (h ▸ nofun : decode bs ≠ .wait)
  rw [decode_header] at h
  split at h
  · cases h
  next ho => cases h; obtain rfl := opcodeOf_eq_some_iff.mp ho; exact ⟨rfl, rfl⟩
  next ho => obtain rfl := opcodeOf_eq_some_iff.mp ho; exact eq_of_decodeInit_eq_command h
  next ho => obtain rfl := opcodeOf_eq_some_iff.mp ho; exact eq_of_decodeProcess_eq_command h

/-- An illegal header is one that names no command, and the decoder takes just that header (R68). -/
theorem decode_eq_illegal_iff {bs rest : List Byte} {hdr : Word} :
    decode bs = .illegal hdr rest ↔ opcodeOf hdr = none ∧ bs = bytesLeList hdr ++ rest := by
  refine ⟨fun h => ?_, fun ⟨ho, hbs⟩ => by rw [hbs, decode_header, ho]⟩
  obtain ⟨hdr', s, rfl⟩ := exists_header_of_decode_ne_wait (h ▸ nofun : decode bs ≠ .wait)
  rw [decode_header] at h
  split at h
  next ho => cases h; exact ⟨ho, rfl⟩
  · cases h
  · exact absurd h (decodeInit_ne_illegal s)
  · exact absurd h (decodeProcess_ne_illegal s)

theorem encode_length : ∀ i : Instr, (encode i).length = messageBytes i
  | .init key iv => Laws.EncodedLength.init key iv
  | .process input outLen => Laws.EncodedLength.process input outLen
  | .genword => Laws.EncodedLength.genword

/-- Settles O3, from the streams a command is decoded from. -/
theorem decodedMessageIsItsEncoding : Obligations.DecodedMessageIsItsEncoding := by
  intro bs i rest h
  obtain ⟨hi, hbs⟩ := decode_eq_command_iff.mp h
  exact ⟨hbs, hi, encode_length i⟩

/-- Settles O4: the message, or the illegal header, is still at the front of the longer stream. -/
theorem decodingIgnoresLaterBytes : Obligations.DecodingIgnoresLaterBytes := by
  refine ⟨fun bs more rest i h => ?_, fun bs more rest hdr h => ?_⟩
  · obtain ⟨hi, rfl⟩ := decode_eq_command_iff.mp h
    exact decode_eq_command_iff.mpr ⟨hi, List.append_assoc ..⟩
  · obtain ⟨ho, rfl⟩ := decode_eq_illegal_iff.mp h
    exact decode_eq_illegal_iff.mpr ⟨ho, List.append_assoc ..⟩

/-! ## Illegal headers -/

/-- The three legal headers, as the ones that name a command (R67, R68). -/
theorem opcodeOf_ne_none_iff (hdr : Word) :
    opcodeOf hdr ≠ none ↔ hdr = 0x00000001 ∨ hdr = 0x00000002 ∨ hdr = 0x00000003 := by
  rw [Option.ne_none_iff_exists']
  simp only [opcodeOf_eq_some_iff]
  constructor
  · rintro ⟨_ | _ | _, h⟩
    · exact .inl h
    · exact .inr (.inl h)
    · exact .inr (.inr h)
  · rintro (h | h | h)
    · exact ⟨.init, h⟩
    · exact ⟨.process, h⟩
    · exact ⟨.genword, h⟩

/-- The illegal headers by value: a reserved bit set, or a reserved opcode (R68). -/
theorem opcodeOf_eq_none_iff (hdr : Word) :
    opcodeOf hdr = none ↔ 256 ≤ hdr.toNat ∨ hdr.toNat % 256 = 0 ∨ 4 ≤ hdr.toNat % 256 := by
  have hlegal : opcodeOf hdr ≠ none ↔ hdr.toNat = 1 ∨ hdr.toNat = 2 ∨ hdr.toNat = 3 := by
    simpa [← BitVec.toNat_inj] using opcodeOf_ne_none_iff hdr
  refine not_iff_not.mp (hlegal.trans ?_)
  omega

/-- An illegal header halts a running core, which answers IllegalCommand alone (R164). -/
theorem step_illegalCommand {s : State} {hdr : Word} {rest : List Byte} (hs : s.halted = false)
    (hd : decode s.rx = .illegal hdr rest) :
    step s = .next { s with rx := rest, tx := s.tx ++ [0x05, 0x00, 0x00, 0x00], halted := true } := by
  rw [step_illegal hs hd, execIllegal_running (s := s.consume rest) hs, State.raiseError_illegalCommand]
  rfl

/-- Settles O5: an illegal header names no command, and that is told from its value. -/
theorem illegalHeaders : Obligations.IllegalHeaders := by
  intro m0 m1 m2 m3 rest hdr illegal
  have hillegal : illegal ↔ opcodeOf hdr = none :=
    decode_eq_illegal_iff.trans (and_iff_left (header_bytes m0 m1 m2 m3 rest))
  refine ⟨hillegal.trans (opcodeOf_eq_none_iff hdr), (not_congr hillegal).trans (opcodeOf_ne_none_iff hdr), ?_⟩
  intro hd s hs hrx
  exact step_illegalCommand hs ((congrArg decode hrx).trans hd)

/-! ## Incomplete messages and the stops of a step -/

/-- A core that waits with a reset signal to come takes it (R220). -/
theorem awaitStep_of_resets_cons {s : State} {bytes : List Byte} {later : List (List Byte)}
    (hr : s.resets = bytes :: later) : awaitStep s = .next (s.takeReset bytes later) := by
  simp [awaitStep, hr]

/-- A core that waits with no reset signal to come stops (R70). -/
theorem awaitStep_of_resets_nil {s : State} (hr : s.resets = []) :
    awaitStep s = .fault (if s.rx = [] then .idle else .truncatedMessage) := by
  cases hx : s.rx <;> simp [awaitStep, hr, hx]

/-- Eight bytes hold the two operand fields (R62). -/
theorem exists_operandFields {s : List Byte} (hs : 8 ≤ s.length) :
    ∃ a b data, operandFields s = some (a, b, data) ∧ s.length = data.length + 8 := by
  match s, hs with
  | _ :: _ :: _ :: _ :: _ :: _ :: _ :: _ :: data, _ => exact ⟨_, _, data, rfl, rfl⟩

theorem decodeInit_ne_wait {s : List Byte} (hs : 2 ^ 33 + 8 ≤ s.length) : decodeInit s ≠ .wait := by
  obtain ⟨keyLen, ivLen, data, hf, hdata⟩ := exists_operandFields (s := s) (by omega)
  have hlen : keyLen.toNat + ivLen.toNat ≤ data.length := by
    have hk := keyLen.isLt
    have hv := ivLen.isLt
    omega
  simp [decodeInit, hf, hlen]

theorem decodeProcess_ne_wait {s : List Byte} (hs : 2 ^ 33 + 8 ≤ s.length) : decodeProcess s ≠ .wait := by
  obtain ⟨inLen, outLen, data, hf, hdata⟩ := exists_operandFields (s := s) (by omega)
  have hlen : inLen.toNat ≤ data.length := by
    have hn := inLen.isLt
    omega
  simp [decodeProcess, hf, hlen]

/-- No message is longer than its header, its operand fields and two sequences of 2^32 bytes (R62, R63), so a stream as long as that
does not wait. -/
theorem decode_ne_wait_of_length {bs : List Byte} (hbs : 2 ^ 33 + 12 ≤ bs.length) : decode bs ≠ .wait := by
  match bs, hbs with
  | m0 :: m1 :: m2 :: m3 :: s, hbs =>
    have hs : 2 ^ 33 + 8 ≤ s.length := by simpa using hbs
    rw [header_bytes, decode_header]
    split
    · nofun
    · nofun
    · exact decodeInit_ne_wait hs
    · exact decodeProcess_ne_wait hs

/-- Settles O6: the two kinds of wait, and zero bytes enough for any message as the missing ones. -/
theorem incompleteMessageWaits : Obligations.IncompleteMessageWaits := by
  refine ⟨fun s hs hd hr => ?stop, fun s bytes later hs hd hr => ?reset, fun bs _ => ?completed⟩
  case stop => rw [step_wait hs hd, awaitStep_of_resets_nil hr]
  case reset => rw [step_wait hs hd, awaitStep_of_resets_cons hr]
  case completed =>
    refine ⟨List.replicate (2 ^ 33 + 12) 0, decode_ne_wait_of_length ?_⟩
    rw [List.length_append, List.length_replicate]
    exact Nat.le_add_left _ _

/-- The three stops of a step, each with no reset signal to come (assumption log 5). -/
theorem step_fault_cases {s : State} {f : Fault} (h : step s = .fault f) :
    s.resets = [] ∧
      ((s.halted = true ∧ s.rx = [] ∧ f = .halted) ∨
       (s.halted = false ∧ s.rx = [] ∧ f = .idle) ∨
       (s.halted = false ∧ s.rx ≠ [] ∧ decode s.rx = .wait ∧ f = .truncatedMessage)) := by
  cases hs : s.halted with
  | true =>
    rw [step_halted hs] at h
    obtain ⟨_, ho⟩ | ⟨_, _, _, _, ho⟩ | ⟨hx, hr, ho⟩ := haltedStep_cases h <;> cases ho
    exact ⟨hr, .inl ⟨rfl, hx, rfl⟩⟩
  | false =>
    cases hd : decode s.rx with
    | wait =>
      rw [step_wait hs hd] at h
      obtain ⟨_, _, _, ho⟩ | ⟨hr, hx, ho⟩ | ⟨hr, hx, ho⟩ := awaitStep_cases h <;> cases ho
      · exact ⟨hr, .inr (.inr ⟨rfl, hx, rfl, rfl⟩)⟩
      · exact ⟨hr, .inr (.inl ⟨rfl, hx, rfl⟩)⟩
    | illegal hdr rest => cases (step_illegalCommand hs hd).symm.trans h
    | command i rest =>
      obtain ⟨t, ht⟩ := exec_answers_next i (s.consume rest)
      cases ((step_command hs hd).trans ht).symm.trans h

/-- Settles O12: a step has no other stops, and each of the three states is one. -/
theorem stopsAreExactlyTheWaits : Obligations.StopsAreExactlyTheWaits := by
  intro s
  refine ⟨⟨fun h => ?_, ?idle⟩, ⟨fun h => ?_, ?truncated⟩, ⟨fun h => ?_, ?halted⟩, fun r h => ?refused⟩
  case idle =>
    rintro ⟨hs, hx, hr⟩
    rw [step_wait hs (by rw [hx]; rfl), awaitStep_of_resets_nil hr, if_pos hx]
  case truncated =>
    rintro ⟨hs, hx, hd, hr⟩
    rw [step_wait hs hd, awaitStep_of_resets_nil hr, if_neg hx]
  case halted =>
    rintro ⟨hs, hx, hr⟩
    simp [step_halted hs, haltedStep, hx, hr]
  case refused =>
    obtain ⟨t, ht⟩ | ⟨f, hf⟩ := step_next_or_fault s
    · cases ht.symm.trans h
    · cases hf.symm.trans h
  all_goals
    obtain ⟨hr, ⟨hs, hx, hf⟩ | ⟨hs, hx, hf⟩ | ⟨hs, hx, hd, hf⟩⟩ := step_fault_cases h <;> cases hf
  · exact ⟨hs, hx, hr⟩
  · exact ⟨hs, hx, hd, hr⟩
  · exact ⟨hs, hx, hr⟩

/-! ## The assembler -/

/-- `KEYSTREAM n` and `SKIP n` are PROCESS of `zeros(n)` (R71). -/
theorem assemble_process_zeros (n : Nat) :
    (AsmLine.process [.zeros n] none).assemble = .process (List.replicate n 0) (zextWord n) := by
  simp [AsmLine.assemble, exprBytes, Atom.bytes]

/-- Settles O8: the expansions by the definition of the assembler, the stream by the decoding of its first message. -/
theorem assemblyExpansions : Obligations.AssemblyExpansions :=
  ⟨fun _ => ⟨rfl, rfl, rfl⟩, fun n => ⟨(assemble_process_zeros n).symm, (assemble_process_zeros n).symm⟩,
    fun _ ls hl => decode_encode_append hl (assembleProgram ls)⟩

/-! ## PROCESS undoes itself -/

/-- A response is its header and its data (R64). -/
theorem Response.bytes_eq_statusBytes_append (st : Status) (data : List Byte) :
    Response.bytes { status := st, data := data } = statusBytes st ++ data :=
  Response.bytes_eq _

/-- XOR with a sequence in two parts, the input cut where the first part ends. -/
theorem xorBytes_append_right (a b c : List Byte) :
    xorBytes a (b ++ c) = xorBytes (a.take b.length) b ++ xorBytes (a.drop b.length) c := by
  induction b generalizing a with
  | nil => simp
  | cons y b ih =>
    cases a with
    | nil => simp
    | cons x a => simp [ih]

/-- The output of steps (b) and (c): the input XOR the bytes of new words (R141). -/
theorem freshBytes_output (k : CipherState) (bs : List Byte) :
    (freshBytes k bs).1 = xorBytes bs (wordBytes (genWords ((bs.length + 3) / 4) k.gen)) := by
  have hcut : ∀ ws : List Word, ws.length = bs.length / 4 → ∀ c, xorBytes bs (wordBytes ws ++ c) =
      xorBytes (bs.take (4 * (bs.length / 4))) (wordBytes ws) ++ xorBytes (bs.drop (4 * (bs.length / 4))) c := by
    intro ws hws c
    rw [xorBytes_append_right, wordBytes_length, hws]
  by_cases hbs : bs.length % 4 = 0
  · have hn : (bs.length + 3) / 4 = bs.length / 4 := by omega
    have hall : 4 * (bs.length / 4) = bs.length := by omega
    simp [freshBytes, wholeWords_eq, hn, hall]
  · have hn : (bs.length + 3) / 4 = bs.length / 4 + 1 := by omega
    have hne : bs.drop (4 * (bs.length / 4)) ≠ [] := by
      rw [ne_eq, List.drop_eq_nil_iff]; omega
    rw [hn, genWords_add, wordBytes_append, hcut _ (genWords_length _ _)]
    simp [freshBytes, wholeWords_eq, trailingBytes_eq _ hne, genWords]

/-- The output of PROCESS: the input XOR the pending bytes and then the bytes of new words (R141). -/
theorem process_output (k : CipherState) (input : List Byte) :
    (process k input).1 =
      xorBytes input (k.pending ++ wordBytes (genWords (wordCount k.idx.val input.length) k.gen)) := by
  obtain ⟨hout, hrest, hgen, _, _⟩ := consumePending_eq k input
  have hn : (input.length - k.idx.val + 3) / 4 = wordCount k.idx.val input.length := by rw [wordCount]; omega
  have hfresh := freshBytes_output (consumePending k input).2.2 (consumePending k input).2.1
  rw [hrest, hgen, List.length_drop, hn] at hfresh
  rw [xorBytes_append_right, CipherState.pending_length, ← hout, ← hfresh, ← hrest]
  rfl

/-- The pending bytes and the new words are enough for the input (R144). -/
theorem length_le_keystream (k : CipherState) (input : List Byte) :
    input.length ≤ (k.pending ++ wordBytes (genWords (wordCount k.idx.val input.length) k.gen)).length := by
  simp [wordCount]
  omega

theorem process_output_length (k : CipherState) (input : List Byte) : (process k input).1.length = input.length := by
  rw [process_output, xorBytes_length_of_le (length_le_keystream k input)]

/-- Steps (b) and (c) leave a cipher state that depends on how much input there is, and not on its bytes. -/
theorem freshBytes_cipher_congr (k : CipherState) {a b : List Byte} (h : a.length = b.length) :
    (freshBytes k a).2 = (freshBytes k b).2 := by
  by_cases ha : a.length % 4 = 0
  · rw [freshBytes_cipher_of_mod_eq_zero k ha, freshBytes_cipher_of_mod_eq_zero k (h ▸ ha), h]
  · rw [freshBytes_cipher_of_mod_ne_zero k ha, freshBytes_cipher_of_mod_ne_zero k (h ▸ ha), h]

theorem CipherState.eq_of_fields {k k' : CipherState} (hgen : k.gen = k'.gen) (hbuf : k.buf = k'.buf)
    (hidx : k.idx = k'.idx) : k = k' := by
  cases k; cases k'; simp_all

/-- PROCESS leaves a cipher state that depends on how much input there is, and not on its bytes. -/
theorem process_cipher_congr (k : CipherState) {a b : List Byte} (h : a.length = b.length) :
    (process k a).2 = (process k b).2 := by
  obtain ⟨_, hra, hga, hba, hia⟩ := consumePending_eq k a
  obtain ⟨_, hrb, hgb, hbb, hib⟩ := consumePending_eq k b
  have hk : (consumePending k a).2.2 = (consumePending k b).2.2 :=
    CipherState.eq_of_fields (hga.trans hgb.symm) (hba.trans hbb.symm) (Fin.ext (by rw [hia, hib, h]))
  have hrest : (consumePending k a).2.1.length = (consumePending k b).2.1.length := by
    rw [hra, hrb, List.length_drop, List.length_drop, h]
  show (freshBytes (consumePending k a).2.2 _).2 = (freshBytes (consumePending k b).2.2 _).2
  rw [hk]
  exact freshBytes_cipher_congr _ hrest

/-- PROCESS of the output gives the input back: both times the keystream is the same. -/
theorem process_output_involutive (k : CipherState) (input : List Byte) :
    (process k (process k input).1).1 = input := by
  rw [process_output k (process k input).1, process_output_length, process_output k input,
    xorBytes_involutive (length_le_keystream k input)]

/-- `PROCESS D` on a ready core (R162). -/
theorem exec_processCommand_ok {s : State} (hs : s.halted = false) (hr : s.ready = true) {D : List Byte}
    (hD : D.length < 2 ^ 32) :
    exec (processCommand D) s = .next ((s.setCipher (process s.cipher D).2).respond
      { status := .ok, data := (process s.cipher D).1 }) :=
  execProcess_ok hs hr (zextWord_toNat hD)

/-- Settles O31: the second PROCESS runs on the same cipher state and on an input of the same length. -/
theorem processIsAnInvolution : Obligations.ProcessIsAnInvolution := by
  intro s s' D hs hr hs' hr' hk hD
  have hlen := process_output_length s.cipher D
  refine ⟨_, _, (process s.cipher D).1, exec_processCommand_ok hs hr hD, ?_,
    exec_processCommand_ok hs' hr' (hlen ▸ hD), ?_, ?_⟩
  · simp [Response.bytes_eq_statusBytes_append]
  · simp [Response.bytes_eq_statusBytes_append, hk, process_output_involutive]
  · simpa [hk] using process_cipher_congr s.cipher hlen

/-! ## The data of a response -/

theorem reportedStatus_init_eq_ok_iff {key iv : List Byte} {s : State} :
    reportedStatus (.init key iv) s = .ok ↔ key.length = 32 ∧ iv.length = 32 := by
  unfold reportedStatus
  by_cases hk : key.length = 32 <;> by_cases hv : iv.length = 32 <;> simp [hk, hv]

theorem reportedStatus_process_eq_ok_iff {input : List Byte} {outLen : Word} {s : State} :
    reportedStatus (.process input outLen) s = .ok ↔ s.ready = true ∧ outLen.toNat = input.length := by
  unfold reportedStatus
  by_cases hl : outLen.toNat = input.length <;> cases s.ready <;> simp [hl]

theorem reportedStatus_genword_eq_ok_iff {s : State} : reportedStatus .genword s = .ok ↔ s.ready = true := by
  unfold reportedStatus
  cases s.ready <;> simp

/-- A command that fails on a running core does nothing but report its status (R204, R205). -/
theorem exec_of_reportedStatus_ne_ok {i : Instr} {s : State} (hs : s.halted = false) (h : reportedStatus i s ≠ .ok) :
    exec i s = .next (s.raiseError (reportedStatus i s)) := by
  cases i with
  | init key iv =>
    rw [exec_init]
    by_cases hk : key.length = 32
    · by_cases hv : iv.length = 32
      · exact absurd (reportedStatus_init_eq_ok_iff.mpr ⟨hk, hv⟩) h
      · rw [execInit_badIV hs hk hv]; simp [reportedStatus, hk, hv]
    · rw [execInit_badKey hs iv hk]; simp [reportedStatus, hk]
  | process input outLen =>
    rw [exec_process]
    cases hr : s.ready with
    | false => rw [execProcess_notReady hs hr]; simp [reportedStatus, hr]
    | true =>
      by_cases hl : outLen.toNat = input.length
      · exact absurd (reportedStatus_process_eq_ok_iff.mpr ⟨hr, hl⟩) h
      · rw [execProcess_mismatch hs hr hl]; simp [reportedStatus, hr, hl]
  | genword =>
    rw [exec_genword]
    cases hr : s.ready with
    | false => rw [execGenword_notReady hs hr]; simp [reportedStatus, hr]
    | true => exact absurd (reportedStatus_genword_eq_ok_iff.mpr hr) h

/-- A command that succeeds on a running core answers OK and as many data bytes as R64 gives, and GENWORD those of its word. -/
theorem exec_of_reportedStatus_eq_ok {i : Instr} {s : State} (hs : s.halted = false) (h : reportedStatus i s = .ok) :
    ∃ t data, exec i s = .next t ∧ t.tx = s.tx ++ statusBytes .ok ++ data ∧ data.length = responseDataLength i .ok ∧
      (i = .genword → data = bytesLeList (gen s.cipher.gen).1) := by
  cases i with
  | init key iv =>
    obtain ⟨hk, hv⟩ := reportedStatus_init_eq_ok_iff.mp h
    exact ⟨_, [], execInit_ok hs hk hv, by simp [Response.bytes_eq_statusBytes_append], rfl, nofun⟩
  | process input outLen =>
    obtain ⟨hr, hl⟩ := reportedStatus_process_eq_ok_iff.mp h
    exact ⟨_, _, execProcess_ok hs hr hl, by simp [Response.bytes_eq_statusBytes_append],
      (process_output_length s.cipher input).trans hl.symm, nofun⟩
  | genword =>
    have hr := reportedStatus_genword_eq_ok_iff.mp h
    exact ⟨_, _, execGenword_ok hs hr, by simp [Response.bytes_eq_statusBytes_append], rfl, fun _ => rfl⟩

/-- An error is answered without data (R64). -/
theorem responseDataLength_of_ne_ok (i : Instr) {st : Status} (h : st ≠ .ok) : responseDataLength i st = 0 := by
  cases st with
  | ok => exact absurd rfl h
  | _ => cases i <;> rfl

/-- Settles O41: a command either fails, and answers its status alone, or succeeds. -/
theorem responseDataBytes : Obligations.ResponseDataBytes := by
  refine ⟨Response.bytes_eq_statusBytes_append, rfl, rfl, rfl, rfl, rfl, rfl, fun i s hs => ?command,
    fun s hdr rest hs hd => ⟨_, step_illegalCommand hs hd, rfl, rfl⟩⟩
  by_cases hok : reportedStatus i s = .ok
  · obtain ⟨t, data, ht, htx, hlen, hgen⟩ := exec_of_reportedStatus_eq_ok hs hok
    rw [hok]
    exact ⟨t, data, ht, htx, hlen, fun hi _ => hgen hi⟩
  · refine ⟨_, [], exec_of_reportedStatus_ne_ok hs hok, ?_, (responseDataLength_of_ne_ok i hok).symm,
      fun _ h => absurd h hok⟩
    simp [Response.bytes_eq_statusBytes_append]

end Sys2Proof.Machine
end

section
/-! PROOFS. The mixing family: f1 and f2 against the library's rotation, linear over exclusive OR, and their values in the corner
cases (R100, R101). -/

namespace Sys2Proof.Machine

/-! ## The shape f1 and f2 share -/

/-- Two rotations and a shift, joined by exclusive OR: the shape of f1 (R100) and of f2 (R101). -/
def rotationMix (m n k : Nat) (x : Word) : Word := ror x m ^^^ ror x n ^^^ (x >>> k)

theorem f1_eq_rotationMix (x : Word) : f1 x = rotationMix 7 18 3 x := rfl

theorem f2_eq_rotationMix (x : Word) : f2 x = rotationMix 17 19 10 x := rfl

section
variable {m n : Nat} (hm : m < 32) (hn : n < 32) (k : Nat)
include hm hn

theorem rotationMix_eq_rotateRight (x : Word) :
    rotationMix m n k x = x.rotateRight m ^^^ x.rotateRight n ^^^ (x >>> k) := by
  rw [rotationMix, ror_eq_rotateRight x hm, ror_eq_rotateRight x hn]

/-- Each of the three parts distributes over exclusive OR (R100), so the terms of the two words only have to be regrouped. -/
theorem rotationMix_xor (a b : Word) : rotationMix m n k (a ^^^ b) = rotationMix m n k a ^^^ rotationMix m n k b := by
  calc rotationMix m n k (a ^^^ b)
      = (ror a m ^^^ ror b m) ^^^ (ror a n ^^^ ror b n) ^^^ ((a >>> k) ^^^ (b >>> k)) := by
        rw [rotationMix, ror_xor a b hm, ror_xor a b hn, BitVec.ushiftRight_xor_distrib]
    _ = rotationMix m n k a ^^^ rotationMix m n k b := by
        simp only [rotationMix]
        ac_rfl

end

/-! ## f1 and f2 -/

theorem f1_xor (a b : Word) : f1 (a ^^^ b) = f1 a ^^^ f1 b := by
  simpa only [f1_eq_rotationMix] using rotationMix_xor (by decide) (by decide) 3 a b

theorem f2_xor (a b : Word) : f2 (a ^^^ b) = f2 a ^^^ f2 b := by
  simpa only [f2_eq_rotationMix] using rotationMix_xor (by decide) (by decide) 10 a b

/-- Settles O14: f1 is a mix of two rotations and a shift; its corner cases are computed. -/
theorem mixingFunctionF1 : Obligations.MixingFunctionF1 := by
  refine ⟨fun x => ?rotations, f1_xor, by decide, by decide, by decide⟩
  rw [f1_eq_rotationMix]
  exact rotationMix_eq_rotateRight (by decide) (by decide) 3 x

/-- Settles O15: f2 is a mix of two rotations and a shift; its corner cases are computed. -/
theorem mixingFunctionF2 : Obligations.MixingFunctionF2 := by
  refine ⟨fun x => ?rotations, f2_xor, by decide, by decide, by decide⟩
  rw [f2_eq_rotationMix]
  exact rotationMix_eq_rotateRight (by decide) (by decide) 10 x

end Sys2Proof.Machine
end

section
/-! PROOFS. The expansion family: the words of the buffer W (R110 to R112) and the tables loaded from it (R113). -/

namespace Sys2Proof.Machine

/-! ## The seeds -/

/-- Each byte of an input word is the byte of the key or IV it was read from (R12, R110). -/
theorem byteOf_inputWord (b : List Byte) (j : Nat) {k : Nat} (hk : k < 4) :
    byteOf (inputWord b j) k = b.getD (4 * j + k) 0 := by
  have hbytes : bytesLeList (inputWord b j) =
      [b.getD (4 * j) 0, b.getD (4 * j + 1) 0, b.getD (4 * j + 2) 0, b.getD (4 * j + 3) 0] := bytesLeList_le32 _ _ _ _
  simp only [bytesLeList_eq, List.cons.injEq, and_true] at hbytes
  obtain ⟨h0, h1, h2, h3⟩ := hbytes
  match k, hk with
  | 0, _ => exact h0
  | 1, _ => exact h1
  | 2, _ => exact h2
  | 3, _ => exact h3

theorem seedBuffer_getD_key (key iv : List Byte) {j : Nat} (hj : j < 8) :
    (seedBuffer key iv).getD j 0 = inputWord key j := by
  simp [seedBuffer, Array.getD_eq_getD_getElem?, List.getElem?_append_left, hj]

theorem seedBuffer_getD_iv (key iv : List Byte) {j : Nat} (hj : j < 8) :
    (seedBuffer key iv).getD (8 + j) 0 = inputWord iv j := by
  simp [seedBuffer, Array.getD_eq_getD_getElem?, List.getElem?_append_right, hj]

/-- The recurrence leaves the seeds as they are. -/
theorem expandBuffer_getD_seed (key iv : List Byte) {i : Nat} (hi : i < 16) :
    (expandBuffer key iv).getD i 0 = (seedBuffer key iv).getD i 0 :=
  expandSteps_getD_lt _ _ (by rwa [seedBuffer_size])

/-! ## The recurrence -/

/-- The word that R112 gives W at index i from the words before it. -/
def recurrenceWord (W : Array Word) (i : Nat) : Word :=
  f2 (W.getD (i - 2) 0) + W.getD (i - 7) 0 + f1 (W.getD (i - 15) 0) + W.getD (i - 16) 0 + zextWord i

/-- The recurrence reads only words before its index. -/
theorem recurrenceWord_congr {V W : Array Word} {i : Nat} (hi : 0 < i)
    (h : ∀ j < i, V.getD j 0 = W.getD j 0) : recurrenceWord V i = recurrenceWord W i := by
  have hback : ∀ d, 0 < d → V.getD (i - d) 0 = W.getD (i - d) 0 := fun d hd => h _ (Nat.sub_lt hi hd)
  simp only [recurrenceWord, hback, Nat.ofNat_pos]

theorem expandStep_getD_size (W : Array Word) : (expandStep W).getD W.size 0 = recurrenceWord W W.size := by
  simp [expandStep, recurrenceWord, Array.getD_eq_getD_getElem?]

/-- Every word that the steps add is the recurrence of the words before it, as the buffer holds them at the end. -/
theorem expandSteps_getD_eq_recurrenceWord (n : Nat) (W : Array Word) {i : Nat} (hi : 0 < i) (hW : W.size ≤ i)
    (hn : i < W.size + n) : (expandSteps n W).getD i 0 = recurrenceWord (expandSteps n W) i := by
  induction n generalizing W with
  | zero => omega
  | succ n ih =>
    obtain rfl | hlt := hW.eq_or_lt
    · calc (expandSteps (n + 1) W).getD W.size 0
          = (expandStep W).getD W.size 0 := expandSteps_getD_lt n _ (by simp)
        _ = recurrenceWord W W.size := expandStep_getD_size W
        _ = recurrenceWord (expandSteps (n + 1) W) W.size :=
            recurrenceWord_congr hi fun j hj => (expandSteps_getD_lt (n + 1) W hj).symm
    · exact ih (expandStep W) (by simpa using hlt) (by simp; omega)

theorem expandBuffer_getD_eq_recurrenceWord (key iv : List Byte) {i : Nat} (hi : 16 ≤ i) (hn : i < 2560) :
    (expandBuffer key iv).getD i 0 = recurrenceWord (expandBuffer key iv) i :=
  expandSteps_getD_eq_recurrenceWord _ _ (by omega) (by rwa [seedBuffer_size])
    (by simpa [seedBuffer_size, Config.expansionWords, Config.seedWords] using hn)

/-! ## The statements -/

/-- Settles O16: the seeds stay in W, and every word after them is the recurrence. -/
theorem expansionBufferWords : Obligations.ExpansionBufferWords := by
  intro key iv _ _ W
  refine ⟨expandBuffer_size key iv, fun j k hj hk => ⟨?key, ?iv⟩,
    fun i hi hn => expandBuffer_getD_eq_recurrenceWord key iv hi hn⟩
  case key => rw [expandBuffer_getD_seed key iv (by omega), seedBuffer_getD_key key iv hj, byteOf_inputWord key j hk]
  case iv => rw [expandBuffer_getD_seed key iv (by omega), seedBuffer_getD_iv key iv hj, byteOf_inputWord iv j hk]

/-- Settles O17: reading a loaded table reads the buffer past the table's offset. -/
theorem tablesLoadedFromBuffer : Obligations.TablesLoadedFromBuffer := fun _ _ j =>
  ⟨loadTable_read _ Config.pOffset j, loadTable_read _ Config.qOffset j, rfl⟩

end Sys2Proof.Machine
end

section
/-! PROOFS. The generator family: the indices of a step (R120, R50), the compression function (R121), the step of each phase (R122
to R124), and how the counter numbers the keystream words (R125, R127, R129). -/

namespace Sys2Proof.Machine

/-! ## The indices of a step -/

/-- Subtraction of indices is the remainder modulo 1024 of the difference of their values (R10). -/
theorem tableIndex_sub_toInt (i k : TableIndex) : ((i - k).toNat : Int) = ((i.toNat : Int) - k.toNat) % 1024 := by
  have hk := k.isLt
  rw [BitVec.toNat_sub]
  omega

/-- Less 1023 and plus 1 are the same offset modulo 1024 (R120). -/
theorem i1023_eq_add_one (i : TableIndex) : i1023 i = i + 1 := sub_eq_add_neg i 1023

/-- The five indices are `i` less five different offsets (R50). -/
theorem stepIndices_nodup (i : TableIndex) : [i, i3 i, i10 i, i12 i, i1023 i].Nodup := by
  have hoffsets : [i, i3 i, i10 i, i12 i, i1023 i] = [0, 3, 10, 12, 1023].map (i - ·) := by
    simp [i3, i10, i12, i1023]
  rw [hoffsets]
  exact List.Nodup.map sub_right_injective (by decide)

theorem i12_ne_self (i : TableIndex) : i12 i ≠ i := sub_eq_self.not.mpr (by decide)

/-- The entry that the output reads is not the one that the step writes (R50). -/
theorem updatedTable_read_i12 (A B : Table) (i : TableIndex) : (updatedTable A B i).read (i12 i) = A.read (i12 i) :=
  updatedTable_read_other A B (i12_ne_self i).symm

/-- Settles O18: the remainders from the value of a difference, the write from `i12` not being `i`. -/
theorem indicesOfAStep : Obligations.IndicesOfAStep := by
  intro c i
  refine ⟨entryIndex_toNat c, tableIndex_sub_toInt i 3, tableIndex_sub_toInt i 10, tableIndex_sub_toInt i 12,
    tableIndex_sub_toInt i 1023, ?_, stepIndices_nodup i, fun A B => updatedTable_read_i12 A B i⟩
  rw [i1023_eq_add_one]
  exact BitVec.toNat_add i 1

/-! ## The compression function -/

/-- A lookup of h stays in the quarter of the table that starts at `q` (R121). -/
theorem Table.read_add_byteOf (T : Table) (u : Word) (k : Nat) {q : TableIndex} (hq : q.toNat ≤ 768) :
    T.read (q + (byteOf u k).setWidth 10) = T[q.toNat + u.toNat / 2 ^ (8 * k) % 256]'(by omega) := by
  have hbyte : (q + (byteOf u k).setWidth 10).toNat = q.toNat + u.toNat / 2 ^ (8 * k) % 256 := by
    simp only [BitVec.toNat_add, BitVec.toNat_setWidth, byteOf_toNat]
    omega
  simp only [Table.read, hbyte]

theorem h_eq (T : Table) (u : Word) : h T u =
    T[u.toNat % 256]'(by omega) + T[256 + u.toNat / 2 ^ 8 % 256]'(by omega) +
      T[512 + u.toNat / 2 ^ 16 % 256]'(by omega) + T[768 + u.toNat / 2 ^ 24 % 256]'(by omega) := by
  have h0 : T.read ((byteOf u 0).setWidth 10) = T[u.toNat % 256]'(by omega) := by
    simpa using Table.read_add_byteOf T u 0 (q := 0) (by decide)
  rw [h, h0, Table.read_add_byteOf T u 1 (by decide), Table.read_add_byteOf T u 2 (by decide),
    Table.read_add_byteOf T u 3 (by decide)]
  rfl

/-- Settles O19: the four lookups by value, and from them the corner case and the example. -/
theorem compressionFunction : Obligations.CompressionFunction := by
  refine ⟨h_eq, fun u => ?allOnes, ?identity⟩
  case allOnes =>
    simp only [h_eq, Vector.getElem_replicate]
    decide
  case identity =>
    simp only [h_eq, Vector.getElem_ofFn]
    decide

/-! ## The step of a phase -/

/-- The new entry, with the library's rotation and the lookup by value (R9, R10, R124). -/
theorem updatedEntry_eq (A B : Table) (i : TableIndex) :
    updatedEntry A B i = A.read i + A.read (i10 i) +
      ((A.read (i3 i)).rotateRight 10 ^^^ (A.read (i1023 i)).rotateRight 23) +
      B[(A.read (i3 i) ^^^ A.read (i1023 i)).toNat % 1024]'(by omega) := by
  simp only [updatedEntry, Table.read_low10]
  rw [ror_eq_rotateRight _ (by decide), ror_eq_rotateRight _ (by decide)]

/-- The output reads one entry from before the step and the new one (R124). -/
theorem outputWord_updatedTable (A B : Table) (i : TableIndex) :
    outputWord (updatedTable A B i) B i = h B (A.read (i12 i)) ^^^ updatedEntry A B i := by
  rw [outputWord, updatedTable_read_i12, updatedTable_read_entry]

theorem gen_of_pPhase {g : GeneratorState} (hc : g.c.toNat < 1024) :
    gen g = (outputWord (updatedTable g.P g.Q (entryIndex g.c)) g.Q (entryIndex g.c),
      { P := updatedTable g.P g.Q (entryIndex g.c), Q := g.Q, c := g.c + 1 }) := by
  obtain ⟨_, hg⟩ | ⟨hle, _⟩ := gen_cases g
  · exact hg
  · omega

theorem gen_of_qPhase {g : GeneratorState} (hc : 1024 ≤ g.c.toNat) :
    gen g = (outputWord (updatedTable g.Q g.P (entryIndex g.c)) g.P (entryIndex g.c),
      { P := g.P, Q := updatedTable g.Q g.P (entryIndex g.c), c := g.c + 1 }) := by
  obtain ⟨hlt, _⟩ | ⟨_, hg⟩ := gen_cases g
  · omega
  · exact hg

/-- Settles O20: the active table is P. -/
theorem pPhaseStep : Obligations.PPhaseStep := by
  intro g hc i x y new
  have hnew : updatedEntry g.P g.Q i = new := updatedEntry_eq g.P g.Q i
  rw [gen_of_pPhase hc, ← hnew]
  exact ⟨updatedTable_read_entry _ _ _, fun j hj => updatedTable_read_other _ _ hj.symm, rfl,
    outputWord_updatedTable _ _ _⟩

/-- Settles O21: the active table is Q. -/
theorem qPhaseStep : Obligations.QPhaseStep := by
  intro g hc i x y new
  have hnew : updatedEntry g.Q g.P i = new := updatedEntry_eq g.Q g.P i
  rw [gen_of_qPhase hc, ← hnew]
  exact ⟨updatedTable_read_entry _ _ _, fun j hj => updatedTable_read_other _ _ hj.symm, rfl,
    outputWord_updatedTable _ _ _⟩

/-! ## The counter and the numbering of the keystream words -/

/-- Settles O22: the counter has 11 bits, so adding one to it wraps at 2048. -/
theorem counterAdvance : Obligations.CounterAdvance := fun g => genSteps_c_toNat 1 g

theorem genWords_succ_last (n : Nat) (g : GeneratorState) : genWords (n + 1) g = genWords n g ++ [ksWord g n] :=
  genWords_add n 1 g

theorem genWords_eq_map_ksWord (n : Nat) (g : GeneratorState) : genWords n g = (List.range n).map (ksWord g) := by
  induction n with
  | zero => rfl
  | succ n ih => rw [genWords_succ_last, ih, List.range_succ, List.map_append, List.map_singleton]

/-- Settles O23: the counter advances by the number of steps, and the words of a run are numbered by its steps. -/
theorem keystreamWordNumbering : Obligations.KeystreamWordNumbering := by
  refine ⟨genSteps_c_toNat, fun key iv => BitVec.eq_of_toNat_eq (freshGenerator_c_toNat key iv), fun key iv n => ?word,
    genWords_eq_map_ksWord⟩
  rw [genSteps_c_toNat, freshGenerator_c_toNat, Nat.zero_add]

end Sys2Proof.Machine
end

section
/-! PROOFS. The byte layer family: the instance a PROCESS leaves (R141, R144), the output contract (R142), and that PROCESS is
splittable (R145). -/

namespace Sys2Proof.Machine

open Host

/-! ## What PROCESS makes of an instance -/

/-- PROCESS makes the generator steps R144 counts. -/
theorem process_gen (k : CipherState) (input : List Byte) :
    (process k input).2.gen = genSteps (wordCount k.idx.val input.length) k.gen :=
  (process_advancesTo k input).1

/-- PROCESS ends as its steps (b) and (c) on the input past the pending bytes (R141). -/
theorem process_cipher_eq_freshBytes (k : CipherState) (input : List Byte) :
    ∃ k' : CipherState, k'.gen = k.gen ∧ k'.buf = k.buf ∧ k'.idx.val = k.idx.val - input.length ∧
      (process k input).2 = (freshBytes k' (input.drop k.idx.val)).2 := by
  obtain ⟨_, hrest, hgen, hbuf, hidx⟩ := consumePending_eq k input
  exact ⟨_, hgen, hbuf, hidx, by rw [← hrest]; rfl⟩

/-- `buf` and `idx` after a PROCESS (R141, R144): step (c) rewrites both unless the input past the pending bytes is whole words. -/
theorem process_buf_idx (k : CipherState) (input : List Byte) :
    ((input.length - k.idx.val) % 4 = 0 ∧ (process k input).2.buf = k.buf ∧
      (process k input).2.idx.val = k.idx.val - input.length) ∨
    ((input.length - k.idx.val) % 4 ≠ 0 ∧
      (process k input).2.buf = bytesLe (ksWord k.gen ((input.length - k.idx.val) / 4)) ∧
      (process k input).2.idx.val = 4 - (input.length - k.idx.val) % 4) := by
  obtain ⟨k', hgen, hbuf, hidx, he⟩ := process_cipher_eq_freshBytes k input
  have hlen : (input.drop k.idx.val).length = input.length - k.idx.val := List.length_drop
  rw [he]
  by_cases hrem : (input.length - k.idx.val) % 4 = 0
  · rw [freshBytes_cipher_of_mod_eq_zero k' (hlen ▸ hrem)]
    exact .inl ⟨hrem, hbuf, hidx⟩
  · rw [freshBytes_cipher_of_mod_ne_zero k' (hlen ▸ hrem), hlen, hgen]
    refine .inr ⟨hrem, rfl, ?_⟩
    rw [Fin.val_ofNat]
    omega

/-- The bytes PROCESS takes in and those it leaves pending are the ones that were pending and the new words' (R144). -/
theorem process_idx_add_length (k : CipherState) (input : List Byte) :
    (process k input).2.idx.val + input.length = k.idx.val + 4 * wordCount k.idx.val input.length := by
  unfold wordCount
  obtain ⟨hrem, _, hidx⟩ | ⟨hrem, _, hidx⟩ := process_buf_idx k input <;> rw [hidx] <;> omega

theorem process_buf_of_mod_eq_zero (k : CipherState) {input : List Byte} (h : (input.length - k.idx.val) % 4 = 0) :
    (process k input).2.buf = k.buf := by
  obtain ⟨_, hbuf, _⟩ | ⟨hrem, _, _⟩ := process_buf_idx k input
  · exact hbuf
  · exact absurd h hrem

/-- When step (c) runs, it leaves the last of the new words in `buf` (R141). -/
theorem process_buf_of_mod_ne_zero (k : CipherState) {input : List Byte} (h : (input.length - k.idx.val) % 4 ≠ 0) :
    (process k input).2.buf = bytesLe (ksWord k.gen (wordCount k.idx.val input.length - 1)) := by
  obtain ⟨hrem, _, _⟩ | ⟨_, hbuf, _⟩ := process_buf_idx k input
  · exact absurd hrem h
  · have hn : wordCount k.idx.val input.length - 1 = (input.length - k.idx.val) / 4 := by unfold wordCount; omega
    rw [hbuf, hn]

/-- R144's formula for `idx`. -/
theorem process_idx (k : CipherState) (input : List Byte) :
    (process k input).2.idx.val =
      if input.length ≤ k.idx.val then k.idx.val - input.length
      else (4 - (input.length - min k.idx.val input.length) % 4) % 4 := by
  have h := process_idx_add_length k input
  unfold wordCount at h
  split <;> omega

/-- Settles O26: the generator steps, `idx`, and the counter of that many steps. -/
theorem processWordCountAndIndex : Obligations.ProcessWordCountAndIndex := by
  intro k input d n a rem words k'
  have hgen : k'.gen = genSteps words k.gen := process_gen k input
  exact ⟨hgen, process_idx k input, by rw [hgen, genSteps_c_toNat]⟩

/-- Settles O27: `buf` is kept exactly when the input past the pending bytes is whole words. -/
theorem processClosedForm : Obligations.ProcessClosedForm := by
  intro k input rem words r
  have hrem : rem = input.length - k.idx.val := by omega
  refine ⟨process_output k input, process_output_length k input, process_gen k input, ?buf, process_idx k input⟩
  split
  next h => exact process_buf_of_mod_eq_zero k (hrem ▸ h)
  next h => exact process_buf_of_mod_ne_zero k (hrem ▸ h)

/-- Without input none of the steps (a), (b) and (c) does anything (R143). -/
theorem process_nil (k : CipherState) : process k [] = ([], k) := by
  simp [process, consumePending, freshBytes, wholeWords_eq, genWords, xorBytes]

/-- Settles O25: on no input the response has no data and the instance put back is the one there was. -/
theorem zeroLengthProcess : Obligations.ZeroLengthProcess := by
  refine ⟨process_nil, fun s hs hr => ?_⟩
  rw [exec_process, execProcess_ok (input := []) hs hr rfl, process_nil, Outcome.next.injEq]
  apply State.eq_of_fields <;> simp [Response.bytes_eq_statusBytes_append]

/-- What `PROCESS D` changes on a ready core: the instance and the response stream (R162). -/
theorem exec_processCommand_next {s : State} (hs : s.halted = false) (hr : s.ready = true) {D : List Byte}
    (hD : D.length < 2 ^ 32) :
    ∃ t, exec (processCommand D) s = .next t ∧ t.halted = false ∧ t.ready = true ∧
      t.cipher = (process s.cipher D).2 ∧ t.tx = s.tx ++ statusBytes .ok ++ (process s.cipher D).1 :=
  ⟨_, exec_processCommand_ok hs hr hD, hs, hr, rfl, by simp [Response.bytes_eq_statusBytes_append]⟩

/-- Settles O29: by R144 four bytes take one word, and `idx` plus the length grows by four for each word. -/
theorem fourByteProcess : Obligations.FourByteProcess := by
  refine ⟨fun s input hs hr hlen => ?four, fun k input hk hlen => ?multiple, freshCipher_idx⟩
  case four =>
    have hone : wordCount s.cipher.idx.val input.length = 1 := by unfold wordCount; omega
    have hidx := process_idx_add_length s.cipher input
    obtain ⟨t, ht, _, _, hk, _⟩ := exec_processCommand_next hs hr (D := input) (by omega)
    refine ⟨t, ht, ?_, Fin.ext (by rw [hk]; omega)⟩
    rw [hk, process_gen, hone]
    rfl
  case multiple =>
    have hidx := process_idx_add_length k input
    rw [hk, wordCount] at hidx
    exact Fin.ext (by simp only [Fin.val_zero] at hidx ⊢; omega)

/-! ## The bytes PROCESS draws on -/

/-- The keystream bytes at hand for a PROCESS of `n` bytes: the pending ones, and those of the words it generates (R141). -/
def CipherState.supply (k : CipherState) (n : Nat) : List Byte :=
  k.pending ++ wordBytes (genWords (wordCount k.idx.val n) k.gen)

theorem process_output_eq_xor_supply (k : CipherState) (input : List Byte) :
    (process k input).1 = xorBytes input (k.supply input.length) := process_output k input

theorem length_le_supply (k : CipherState) (input : List Byte) : input.length ≤ (k.supply input.length).length :=
  length_le_keystream k input

/-- PROCESS leaves pending what it did not use (R24, R142). -/
theorem process_pending (k : CipherState) (input : List Byte) :
    (process k input).2.pending = (k.supply input.length).drop input.length := by
  obtain ⟨hrem, hbuf, hidx⟩ | ⟨hrem, hbuf, hidx⟩ := process_buf_idx k input
  · have hk := k.idx.isLt
    rw [CipherState.supply, CipherState.pending, hbuf, hidx]
    by_cases hle : input.length ≤ k.idx.val
    · have hn : wordCount k.idx.val input.length = 0 := by unfold wordCount; omega
      have hpos : 4 - (k.idx.val - input.length) = 4 - k.idx.val + input.length := by omega
      rw [hn, hpos, genWords, wordBytes_nil, List.append_nil, CipherState.pending, List.drop_drop]
    · rw [List.drop_eq_nil_of_le (by simp; omega), List.drop_eq_nil_of_le (by simp [wordCount]; omega)]
  · have hn : wordCount k.idx.val input.length = (input.length - k.idx.val) / 4 + 1 := by unfold wordCount; omega
    have hwhole : (k.pending ++ wordBytes (genWords ((input.length - k.idx.val) / 4) k.gen)).length =
        k.idx.val + 4 * ((input.length - k.idx.val) / 4) := by simp
    have hpos : 4 - (4 - (input.length - k.idx.val) % 4) =
        input.length - (k.idx.val + 4 * ((input.length - k.idx.val) / 4)) := by omega
    rw [CipherState.supply, hn, genWords_succ_last, wordBytes_append, ← List.append_assoc, List.drop_append,
      List.drop_eq_nil_of_le (by omega), hwhole, ← hpos, ← hidx, wordBytes_cons, wordBytes_nil, List.append_nil,
      List.nil_append, ← bytesLe_toList, ← hbuf]
    rfl

/-! ## PROCESS in parts -/

/-- The words of a PROCESS of `m + n` bytes are those of its first `m` and then those the other `n` need. -/
theorem wordCount_add {d d' m : Nat} (h : d' + m = d + 4 * wordCount d m) (n : Nat) :
    wordCount d (m + n) = wordCount d m + wordCount d' n := by
  unfold wordCount at *
  omega

theorem xorBytes_append_left (a b c : List Byte) :
    xorBytes (a ++ b) c = xorBytes a c ++ xorBytes b (c.drop a.length) := by
  induction a generalizing c with
  | nil => rfl
  | cons x a ih =>
    cases c with
    | nil => simp [xorBytes]
    | cons y c => simp [ih]

theorem xorBytes_append_right_of_le {a b : List Byte} (h : a.length ≤ b.length) (c : List Byte) :
    xorBytes a (b ++ c) = xorBytes a b := by
  rw [xorBytes_append_right, List.take_of_length_le h, List.drop_eq_nil_of_le h, xorBytes_nil_left, List.append_nil]

/-- The output of PROCESS on two parts: the second goes on with the bytes the first left pending (R145). -/
theorem process_output_append (k : CipherState) (a b : List Byte) :
    (process k (a ++ b)).1 = (process k a).1 ++ (process (process k a).2 b).1 := by
  have hsupply : k.supply (a ++ b).length = k.supply a.length ++
      wordBytes (genWords (wordCount (process k a).2.idx.val b.length) (process k a).2.gen) := by
    rw [CipherState.supply, List.length_append, wordCount_add (process_idx_add_length k a), genWords_add,
      wordBytes_append, ← List.append_assoc, ← process_gen]
    rfl
  have hlen := length_le_supply k a
  simp only [process_output_eq_xor_supply]
  rw [hsupply, xorBytes_append_left, xorBytes_append_right_of_le hlen, List.drop_append_of_le_length hlen,
    ← process_pending]
  rfl

/-- `k'` is what `k` becomes when `n` bytes are processed, up to a `buf` that is never read (R24, R144). -/
def CipherState.ProcessesTo (k : CipherState) (n : Nat) (k' : CipherState) : Prop :=
  k'.gen = genSteps (wordCount k.idx.val n) k.gen ∧
    k'.idx.val + n = k.idx.val + 4 * wordCount k.idx.val n ∧
    (k'.idx.val ≠ 0 → k'.buf =
      if wordCount k.idx.val n = 0 then k.buf else bytesLe (ksWord k.gen (wordCount k.idx.val n - 1)))

theorem process_processesTo (k : CipherState) (input : List Byte) :
    k.ProcessesTo input.length (process k input).2 := by
  have hidx := process_idx_add_length k input
  refine ⟨process_gen k input, hidx, fun hi => ?_⟩
  split
  next h0 => exact process_buf_of_mod_eq_zero k (by unfold wordCount at h0; omega)
  next h0 => exact process_buf_of_mod_ne_zero k (by unfold wordCount at hidx h0; omega)

theorem CipherState.ProcessesTo.trans {k k' k'' : CipherState} {m n : Nat} (h : k.ProcessesTo m k')
    (h' : k'.ProcessesTo n k'') : k.ProcessesTo (m + n) k'' := by
  obtain ⟨hgen, hidx, hbuf⟩ := h
  obtain ⟨hgen', hidx', hbuf'⟩ := h'
  have hwords := wordCount_add hidx n
  refine ⟨by rw [hgen', hgen, hwords, genSteps_add], by omega, fun hi => ?_⟩
  rw [hbuf' hi]
  by_cases hn : wordCount k'.idx.val n = 0
  · rw [if_pos hn, hbuf (by omega), hwords, hn, Nat.add_zero]
  · rw [if_neg hn, hgen, ksWord_genSteps, hwords, if_neg (by omega), Nat.add_sub_assoc (by omega)]

/-- Two instances that one becomes by the same number of bytes agree. -/
theorem CipherState.ProcessesTo.agrees {k k₁ k₂ : CipherState} {n : Nat} (h₁ : k.ProcessesTo n k₁)
    (h₂ : k.ProcessesTo n k₂) : k₁.Agrees k₂ := by
  obtain ⟨hgen₁, hidx₁, hbuf₁⟩ := h₁
  obtain ⟨hgen₂, hidx₂, hbuf₂⟩ := h₂
  have hidx : k₁.idx = k₂.idx := Fin.ext (by omega)
  have hbuf : k₁.idx ≠ 0 → k₁.buf = k₂.buf := fun hi => by
    have hi₁ : k₁.idx.val ≠ 0 := Fin.val_ne_zero_iff.mpr hi
    rw [hbuf₁ hi₁, hbuf₂ (hidx ▸ hi₁)]
  refine ⟨hgen₁.trans hgen₂.symm, hidx, ?_, hbuf⟩
  by_cases hi : k₁.idx = 0
  · rw [pending_of_idx_zero hi, pending_of_idx_zero (hidx ▸ hi)]
  · rw [pending, pending, hbuf hi, hidx]

theorem processChunks_output (k : CipherState) (chunks : List (List Byte)) :
    (processChunks k chunks).1 = (process k chunks.flatten).1 := by
  induction chunks generalizing k with
  | nil => rw [List.flatten_nil, process_nil]; rfl
  | cons d ds ih => rw [List.flatten_cons, process_output_append, ← ih]; rfl

theorem processChunks_processesTo (k : CipherState) (chunks : List (List Byte)) :
    k.ProcessesTo chunks.flatten.length (processChunks k chunks).2 := by
  induction chunks generalizing k with
  | nil => simpa [processChunks, process_nil] using process_processesTo k []
  | cons d ds ih =>
    rw [List.flatten_cons, List.length_append]
    exact (process_processesTo k d).trans (ih _)

/-- Settles O28: in one part or in several, the instance processes the same number of bytes. -/
theorem processIsSplittable : Obligations.ProcessIsSplittable := by
  refine ⟨fun s D1 D2 hs hr hlen => ?commands, fun k chunks => ⟨processChunks_output k chunks,
    (processChunks_processesTo k chunks).agrees (process_processesTo k chunks.flatten)⟩⟩
  have hsum := List.length_append (as := D1) (bs := D2)
  obtain ⟨t1, ht1, hs1, hr1, hk1, htx1⟩ := exec_processCommand_next hs hr (D := D1) (by omega)
  obtain ⟨t2, ht2, _, _, hk2, htx2⟩ := exec_processCommand_next hs1 hr1 (D := D2) (by omega)
  obtain ⟨u, hu, _, _, hku, hux⟩ := exec_processCommand_next hs hr hlen
  rw [hk1] at hk2 htx2
  refine ⟨t1, t2, u, _, _, ht1, ht2, hu, process_output_length _ _, process_output_length _ _, htx1, htx2,
    by rw [hux, process_output_append], ?agrees⟩
  have hparts := (process_processesTo s.cipher D1).trans (process_processesTo _ D2)
  rw [hk2, hku]
  exact (hsum ▸ hparts).agrees (process_processesTo s.cipher (D1 ++ D2))

/-! ## The output contract -/

/-- With `emitted` of the bytes `pks` used, those at hand for a PROCESS are the rest of `pks` and the new ones. -/
theorem CipherState.PendingOf.supply_eq {k : CipherState} {pks : List Byte} {emitted : Nat}
    (h : k.PendingOf pks emitted) (n : Nat) :
    k.supply n = (pks ++ wordBytes (genWords (wordCount k.idx.val n) k.gen)).drop emitted := by
  obtain ⟨hidx, hpending⟩ := h
  rw [supply, hpending, List.drop_append_of_le_length (by omega)]

/-- R142: PROCESS adds the bytes of its new words to `pks` and uses as many as its input has. -/
theorem process_keeps_pendingOf {k : CipherState} {pks : List Byte} {emitted : Nat} (h : k.PendingOf pks emitted)
    (input : List Byte) :
    (process k input).2.PendingOf (pks ++ wordBytes (genWords (wordCount k.idx.val input.length) k.gen))
      (emitted + input.length) := by
  refine ⟨?_, by rw [process_pending, h.supply_eq, List.drop_drop]⟩
  have hidx := process_idx_add_length k input
  have hpks := h.1
  rw [List.length_append, wordBytes_length, genWords_length]
  omega

/-- What PROCESS does on a ready core with `emitted` of the bytes `pks` used (R142, R162). -/
theorem exec_processCommand_contract {s : State} (hs : s.halted = false) (hr : s.ready = true) {pks : List Byte}
    {emitted : Nat} (h : s.cipher.PendingOf pks emitted) {input : List Byte} (hn : input.length < 2 ^ 32) :
    let pks' := pks ++ wordBytes (genWords (wordCount s.cipher.idx.val input.length) s.cipher.gen)
    ∃ t, exec (processCommand input) s = .next t ∧ t.halted = false ∧ t.ready = true ∧
      t.cipher.gen = genSteps (wordCount s.cipher.idx.val input.length) s.cipher.gen ∧
      input.length ≤ (pks'.drop emitted).length ∧
      t.tx = s.tx ++ statusBytes .ok ++ xorBytes input (pks'.drop emitted) ∧
      t.cipher.PendingOf pks' (emitted + input.length) := by
  intro pks'
  have hsupply : s.cipher.supply input.length = pks'.drop emitted := h.supply_eq _
  obtain ⟨t, ht, hth, htr, hk, htx⟩ := exec_processCommand_next hs hr hn
  refine ⟨t, ht, hth, htr, by rw [hk, process_gen], ?_, ?_, hk ▸ process_keeps_pendingOf h input⟩
  · rw [← hsupply]
    exact length_le_supply s.cipher input
  · rw [htx, process_output_eq_xor_supply, hsupply]

theorem ksByte_gen (g : GeneratorState) (m : Nat) : ksByte (gen g).2 m = ksByte g (m + 4) := by
  rw [ksByte, ksByte, Nat.add_div_right m (by omega), Nat.add_mod_right]
  rfl

/-- The bytes of the generated words are numbered by their position in the keystream (R140). -/
theorem getElem_wordBytes_genWords (n : Nat) (g : GeneratorState) {m : Nat} (hm : m < (wordBytes (genWords n g)).length) :
    (wordBytes (genWords n g))[m] = ksByte g m := by
  induction n generalizing g m with
  | zero => simp [genWords] at hm
  | succ n ih =>
    simp only [genWords, wordBytes_cons, List.getElem_append]
    split
    next hlt =>
      simp only [bytesLeList_length] at hlt
      interval_cases m <;> rfl
    next hge =>
      simp only [bytesLeList_length] at hge ⊢
      rw [ih, ksByte_gen, Nat.sub_add_cancel (by omega)]

/-- XOR with the generated words from position `pos` on, byte by byte (R142). -/
theorem xorBytes_drop_wordBytes (n : Nat) (g : GeneratorState) {pos : Nat} {d : List Byte}
    (hd : d.length ≤ ((wordBytes (genWords n g)).drop pos).length) :
    xorBytes d ((wordBytes (genWords n g)).drop pos) = d.mapIdx fun k b => b ^^^ ksByte g (pos + k) := by
  apply List.ext_getElem
  · rw [xorBytes_length_of_le hd, List.length_mapIdx]
  · intro i hi hi'
    simp [xorBytes, getElem_wordBytes_genWords]

/-- With no GENWORD between them, PROCESS commands answer the keystream of `g` from the position they start at (R142). -/
theorem execAll_processCommands {g : GeneratorState} {chunks : List (List Byte)}
    (hchunks : ∀ d ∈ chunks, d.length < 2 ^ 32) {s : State} (hs : s.halted = false) (hr : s.ready = true) {n pos : Nat}
    (hgen : s.cipher.gen = genSteps n g) (hpending : s.cipher.PendingOf (wordBytes (genWords n g)) pos) :
    ∃ t, execAll (chunks.map processCommand) s = .next t ∧ t.tx = s.tx ++ keystreamResponses g pos chunks := by
  induction chunks generalizing s n pos with
  | nil => exact ⟨s, rfl, (List.append_nil _).symm⟩
  | cons d ds ih =>
    obtain ⟨hd, hds⟩ := List.forall_mem_cons.mp hchunks
    obtain ⟨t, ht, hth, htr, htgen, hlen, htx, htpending⟩ := exec_processCommand_contract hs hr hpending hd
    rw [hgen, ← wordBytes_append, ← genWords_add] at hlen htx htpending
    rw [hgen, ← genSteps_add] at htgen
    rw [xorBytes_drop_wordBytes _ g hlen] at htx
    obtain ⟨u, hu, hux⟩ := ih hds hth htr htgen htpending
    refine ⟨u, (execAll_cons_of_next ht _).trans hu, ?_⟩
    rw [hux, htx]
    simp only [keystreamResponses, List.append_assoc]

/-- A successful INIT answers OK without data (R161). -/
theorem exec_init_tx {s t : State} (hs : s.halted = false) {key iv : List Byte} (hk : key.length = 32)
    (hv : iv.length = 32) (h : exec (.init key iv) s = .next t) : t.tx = s.tx ++ statusBytes .ok := by
  cases (execInit_ok hs hk hv).symm.trans h
  simp [Response.bytes_eq_statusBytes_append]

theorem pendingOf_freshCipher (key iv : List Byte) : (freshCipher key iv).PendingOf [] 0 :=
  ⟨by simp, CipherState.pending_of_idx_zero (freshCipher_idx key iv)⟩

/-- Settles O30: a fresh instance has no byte used, GENWORD keeps `buf` and `idx`, and each PROCESS keeps the account of its
bytes. -/
theorem processOutputContract : Obligations.ProcessOutputContract := by
  refine ⟨fun key iv s hs hk hv => ?init, fun s pks emitted hs hr h => ⟨?genword, fun input hn => ?process⟩,
    fun key iv chunks s hs hk hv hchunks => ?stream⟩
  case init =>
    obtain ⟨t, ht, htc, htr, hth⟩ := exec_init_ok hs hk hv
    exact ⟨t, ht, htr, hth, htc ▸ pendingOf_freshCipher key iv⟩
  case genword => exact ⟨_, execGenword_ok hs hr, h⟩
  case process =>
    obtain ⟨t, ht, _, _, hcontract⟩ := exec_processCommand_contract hs hr h hn
    exact ⟨t, ht, hcontract⟩
  case stream =>
    obtain ⟨t, ht, htc, htr, hth⟩ := exec_init_ok hs hk hv
    have hgen : t.cipher.gen = genSteps 0 (freshGenerator key iv) := by rw [htc, freshCipher_gen, genSteps_zero]
    have hpending : t.cipher.PendingOf (wordBytes (genWords 0 (freshGenerator key iv))) 0 :=
      htc ▸ pendingOf_freshCipher key iv
    obtain ⟨u, hu, hux⟩ := execAll_processCommands hchunks hth htr hgen hpending
    exact ⟨u, (execAll_cons_of_next ht _).trans hu, by rw [hux, exec_init_tx hs hk hv ht]⟩

end Sys2Proof.Machine
end

section
/-! PROOFS. The commands family: the step that runs a command (R160), the errors and the success of each command (R161 to R163), what
GENWORD and PROCESS leave unchanged (R49, R141), and the halted core (R165). -/

namespace Sys2Proof.Machine

/-- Settles O9: consuming the message is the only other thing the step does. -/
theorem stepExecutesDecodedCommand : Obligations.StepExecutesDecodedCommand := fun _ _ _ hs hd => step_command hs hd

/-! ## Responses as updates of the state -/

/-- A response changes the response stream alone (R64). -/
theorem State.respond_eq (s : State) (st : Status) (data : List Byte) :
    s.respond { status := st, data := data } = { s with tx := s.tx ++ statusBytes st ++ data } := by
  rw [List.append_assoc, ← Response.bytes_eq_statusBytes_append]
  rfl

/-- The error of a command changes the response stream alone (R205). -/
theorem State.raiseError_eq_statusBytes (s : State) {e : Status} (he : e ≠ .illegalCommand) :
    s.raiseError e = { s with tx := s.tx ++ statusBytes e } :=
  s.raiseError_eq he

theorem reportedStatus_ne_illegalCommand (i : Instr) (s : State) : reportedStatus i s ≠ .illegalCommand := by
  unfold reportedStatus
  repeat' split
  all_goals decide

/-- Settles O40: an error raises its status, and no command's status is the one that halts the core. -/
theorem errorsLeaveTheStateUnchanged : Obligations.ErrorsLeaveTheStateUnchanged := by
  intro i s hs h
  rw [exec_of_reportedStatus_ne_ok hs h, s.raiseError_eq_statusBytes (reportedStatus_ne_illegalCommand i s)]

/-! ## The three commands -/

/-- Settles O32: the new instance is the fresh one, whose counter the 4096 warm-up steps bring back to 0. -/
theorem initCommand : Obligations.InitCommand := by
  intro key iv s hs
  rw [exec_init]
  refine ⟨fun hk => ?badKey, fun hk hv => ?badIV, fun hk hv => ⟨freshCipher key iv, ?ok, warmupSteps_eq,
    freshGenerator_eq key iv, BitVec.eq_of_toNat_eq (freshGenerator_c_toNat key iv), rfl, freshCipher_idx key iv⟩⟩
  case badKey => rw [execInit_badKey hs iv hk, s.raiseError_eq_statusBytes (by decide)]
  case badIV => rw [execInit_badIV hs hk hv, s.raiseError_eq_statusBytes (by decide)]
  case ok =>
    rw [execInit_ok hs hk hv, State.respond_eq, List.append_nil]
    rfl

/-- Settles O33: the checks in their order, then the output of the process algorithm and the instance it leaves. (The name
without `_spec` is the model's own `processCommand`.) -/
theorem processCommand_spec : Obligations.ProcessCommand := by
  intro input outLen s hs
  rw [exec_process]
  refine ⟨fun hr => ?notReady, fun hr hl => ?mismatch, fun hr hl => ⟨?ok, process_output_length s.cipher input⟩⟩
  case notReady => rw [execProcess_notReady hs hr, s.raiseError_eq_statusBytes (by decide)]
  case mismatch => rw [execProcess_mismatch hs hr hl, s.raiseError_eq_statusBytes (by decide)]
  case ok =>
    rw [execProcess_ok hs hr hl, State.respond_eq]
    rfl

/-- Settles O34: one check, then the word of one generator step and the generator after it. -/
theorem genwordCommand : Obligations.GenwordCommand := by
  intro s hs
  rw [exec_genword]
  refine ⟨fun hr => ?notReady, fun hr => ?ok⟩
  case notReady => rw [execGenword_notReady hs hr, s.raiseError_eq_statusBytes (by decide)]
  case ok =>
    rw [execGenword_ok hs hr, State.respond_eq]
    rfl

/-! ## What the commands leave unchanged -/

/-- Settles O35: GENWORD replaces the generator by the one after a step, whose frame is that of `gen`. -/
theorem genwordFrame : Obligations.GenwordFrame := fun s hs hr =>
  ⟨_, execGenword_ok hs hr, rfl, rfl, rfl, rfl, rfl, rfl, rfl, rfl, fun _ hj => gen_P_read_other hj,
    fun _ hj => gen_Q_read_other hj, counterAdvance s.cipher.gen⟩

/-- Settles O36: PROCESS makes the generator steps R144 counts, each with its own frame, and keeps `buf` on whole words. -/
theorem processFrame : Obligations.ProcessFrame := by
  intro s input hs hr hn rem c
  have hgen := process_gen s.cipher input
  refine ⟨_, exec_processCommand_ok hs hr hn, rfl, rfl, rfl, rfl, rfl, fun hrem => ?buf, fun j hj => ?P, fun j hj => ?Q⟩
  case buf => exact process_buf_of_mod_eq_zero s.cipher (by omega)
  case P => exact (congrArg (·.P.read j) hgen).trans ((generatorStepsFrame _ _ j).1 hj)
  case Q => exact (congrArg (·.Q.read j) hgen).trans ((generatorStepsFrame _ _ j).2 hj)

/-! ## The halted core -/

/-- A step of a halted core swallows the pending bytes or, with none pending, takes the next reset signal (R165). -/
theorem step_halted_cases {s t : State} (hs : s.halted = true) (h : step s = .next t) :
    (s.rx ≠ [] ∧ t = s.consume []) ∨
      (s.rx = [] ∧ ∃ bytes later, s.resets = bytes :: later ∧ t = s.takeReset bytes later) := by
  rw [step_halted hs] at h
  obtain ⟨hx, ho⟩ | ⟨hx, bytes, later, hr, ho⟩ | ⟨_, _, ho⟩ := haltedStep_cases h <;> cases ho
  · exact .inl ⟨hx, rfl⟩
  · exact .inr ⟨hx, bytes, later, hr, rfl⟩

theorem step_halted_of_rx_ne_nil {s : State} (hs : s.halted = true) (hx : s.rx ≠ []) :
    step s = .next (s.consume []) := by
  rw [step_halted hs]
  obtain ⟨_, ho⟩ | ⟨hx', _⟩ | ⟨hx', _⟩ := haltedStep_cases (s := s) rfl
  · exact ho
  · exact absurd hx' hx
  · exact absurd hx' hx

/-- Settles O42: no command runs, and the three cases of a halted core's step are the other clauses. -/
theorem haltedCoreSwallows : Obligations.HaltedCoreSwallows := by
  intro s hs
  obtain ⟨_, _, hstuck, _⟩ := stopsAreExactlyTheWaits s
  refine ⟨exec_halted hs, step_halted_of_rx_ne_nil hs, fun t h => ?step,
    fun hx hr => ⟨hstuck.mpr ⟨hs, hx, hr⟩, rfl⟩⟩
  obtain ⟨_, rfl⟩ | ⟨hx, bytes, later, hr, rfl⟩ := step_halted_cases hs h
  · exact ⟨rfl, .inl ⟨hs, rfl⟩⟩
  · exact ⟨rfl, .inr ⟨hx, bytes, later, hr, rfl⟩⟩

end Sys2Proof.Machine
end

section
/-! PROOFS. The exceptions family: the order in which the conditions of a response are reported (R204). -/

namespace Sys2Proof.Machine

/-- Settles O39: a halted core's step leaves the response stream, an illegal header halts a running core, and the data after a
command's status are as many as R64 gives, which is none on an error. -/
theorem firstConditionIsReported : Obligations.FirstConditionIsReported := by
  refine ⟨fun s t hs h => ?halted, fun s hdr rest hs hd => ⟨_, step_illegalCommand hs hd, rfl⟩, fun i s hs => ?command⟩
  case halted =>
    obtain ⟨_, rfl⟩ | ⟨_, bytes, later, _, rfl⟩ := step_halted_cases hs h
    · exact s.consume_tx []
    · exact s.takeReset_tx bytes later
  case command =>
    obtain ⟨_, _, _, _, _, _, _, hcommands, _⟩ := responseDataBytes
    obtain ⟨t, data, ht, htx, hlen, _⟩ := hcommands i s hs
    have hnone (herr : reportedStatus i s ≠ .ok) : data = [] :=
      List.eq_nil_of_length_eq_zero (hlen.trans (responseDataLength_of_ne_ok i herr))
    exact ⟨t, data, ht, htx, hnone, hlen⟩

end Sys2Proof.Machine
end

section
/-! PROOFS. The reset and hazards family: the reset signal (R220), and a GENWORD between PROCESS commands (R225). -/

namespace Sys2Proof.Machine

/-! ## A GENWORD between PROCESS commands -/

/-- What GENWORD changes on a ready core: the generator and the response stream (R163). -/
theorem exec_genword_next {s : State} (hs : s.halted = false) (hr : s.ready = true) :
    ∃ t, exec .genword s = .next t ∧ t.halted = false ∧ t.ready = true ∧
      t.cipher = { s.cipher with gen := (gen s.cipher.gen).2 } ∧
      t.tx = s.tx ++ statusBytes .ok ++ bytesLeList (ksWord s.cipher.gen 0) := by
  refine ⟨_, execGenword_ok hs hr, hs, hr, rfl, ?_⟩
  rw [State.respond_eq]
  rfl

/-- After one step the keystream is numbered from its second word (R129). -/
theorem ksWord_gen (g : GeneratorState) (m : Nat) : ksWord (gen g).2 m = ksWord g (m + 1) := rfl

/-- The bytes at hand after a generator step outside PROCESS: the pending ones are still the first, and the words after them
leave out the one that step took (R163, R142). -/
theorem supply_gen (k : CipherState) (n : Nat) :
    ({ k with gen := (gen k.gen).2 } : CipherState).supply n =
      k.pending ++ (List.range (wordCount k.idx.val n)).flatMap fun m => bytesLeList (ksWord k.gen (m + 1)) := by
  simp only [CipherState.supply, CipherState.pending, genWords_eq_map_ksWord, wordBytes, List.flatMap_map, ksWord_gen]

/-- Settles O37: GENWORD leaves the pending bytes and takes one word, so the PROCESS after it draws on the bytes of
`supply_gen`. -/
theorem genwordBetweenProcessCommands : Obligations.GenwordBetweenProcessCommands := by
  intro s input hs hr hn
  obtain ⟨t, ht, hth, htr, htk, htx⟩ := exec_genword_next hs hr
  obtain ⟨u, hu, _, _, _, hux⟩ := exec_processCommand_next hth htr hn
  rw [process_output_eq_xor_supply, htk, supply_gen] at hux
  exact ⟨t, u, ht, hu, htx, hux⟩

/-! ## The reset signal -/

/-- A halted core with every byte swallowed takes the next reset signal (R165, R220). -/
theorem haltedStep_of_resets_cons {s : State} (hx : s.rx = []) {bytes : List Byte} {later : List (List Byte)}
    (hr : s.resets = bytes :: later) : haltedStep s = .next (s.takeReset bytes later) := by
  simp [haltedStep, hx, hr]

/-- Where the core would otherwise wait, its step is the next reset signal (R220). -/
theorem step_of_resets_cons {s : State} (hwait : s.halted = true ∧ s.rx = [] ∨ s.halted = false ∧ decode s.rx = .wait)
    {bytes : List Byte} {later : List (List Byte)} (hr : s.resets = bytes :: later) :
    step s = .next (s.takeReset bytes later) := by
  obtain ⟨hs, hx⟩ | ⟨hs, hd⟩ := hwait
  · rw [step_halted hs, haltedStep_of_resets_cons hx hr]
  · rw [step_wait hs hd, awaitStep_of_resets_cons hr]

/-- Settles O11: the step is the reset, and with nothing sent after it the core is in the idle wait. -/
theorem resetSignal : Obligations.ResetSignal := by
  intro s bytes later hwait hr
  obtain ⟨hidle, _⟩ := stopsAreExactlyTheWaits (s.takeReset bytes later)
  exact ⟨_, step_of_resets_cons hwait hr, rfl, rfl, rfl, rfl, rfl, fun hb hl => hidle.mpr ⟨rfl, hb, hl⟩⟩

end Sys2Proof.Machine
end
